-- ==== Sys2Proof/Word.lean ====
section
/-! DEFINITION. The word types of the engine (00_scope.md R5 to R7). -/

namespace Sys2Proof

/-- A memory cell, an opcode or an operand byte (R5 `CELL_W`, R31). -/
abbrev Byte := BitVec 8

/-- The program counter's word (R5 `PC_W`, R14). -/
abbrev PcWord := BitVec 9

/-- `REGW` of R5: the register width in bits, or `unbounded`, the reference behaviour.
R5 lets the number of bits be 8 or more (`RegWidth.legal`). -/
inductive RegWidth where
  | bits (n : Nat)
  | unbounded
  deriving DecidableEq, Repr

end Sys2Proof
end

