-- ==== Sys2Proof/Syntax.lean ====
section
/-! DEFINITION. The four instructions (30_encoding.md R54), the shape of a row of the dispatch table, and what
decoding answers. -/

namespace Sys2Proof

/-- One constructor per row of the opcode table (R54, R51). A register operand is the whole operand byte (R52);
the bytes that formats `N` and `R` ignore are no part of the instruction (R51, log 18). -/
inductive Instr where
  /-- `LDI Ra,imm` (R85). -/
  | ldi (a imm : Byte)
  /-- `PRN Ra` (R88). -/
  | prn (a : Byte)
  /-- `MUL Ra,Rb` (R96). -/
  | mul (a b : Byte)
  /-- `HLT` (R100). -/
  | hlt
  deriving DecidableEq, Repr

/-- The handlers of the dispatch table, by their mnemonics (R54). -/
inductive Mnemonic where
  | LDI | PRN | MUL | HLT
  deriving DecidableEq, Repr

/-- The four formats of R51. -/
inductive Format where
  | N | R | RI | RR
  deriving DecidableEq, Repr

/-- A row of the dispatch table of R54; `advance` is `none` where the table says the loop exits. -/
structure DispatchRow where
  mnemonic : Mnemonic
  opcode   : Byte
  format   : Format
  length   : Nat
  advance  : Option Nat
  deriving DecidableEq, Repr

/-- What decoding answers: an instruction, or "not found" (R55, R57), with the opcode byte refused. -/
inductive Decoded where
  | instr (i : Instr)
  | invalidOpcode (op : Byte)
  deriving DecidableEq, Repr

end Sys2Proof
end

