-- ==== Sys2Proof/WellFormed.lean ====
section
/-! DEFINITION. When a term of the model stands for something the spec writes. A register operand of 8 or more has an
encoding and decodes (30_encoding.md R58); `Instr.wf` marks the instructions that name existing registers, the ones the
assembler's forms of R60 can write (log 18). -/

namespace Sys2Proof

/-- The index names one of R0 to R7 (10_state.md R11). -/
abbrev isRegIndex (i : Byte) : Prop := i.toNat < 8

/-- The instruction names only registers that exist (R11, R60). -/
def Instr.wf : Instr → Bool
  | .ldi a _ => decide (isRegIndex a)
  | .prn a   => decide (isRegIndex a)
  | .mul a b => decide (isRegIndex a) && decide (isRegIndex b)
  | .hlt     => true

/-- `REGW` is one of 8, 9, 10, ... or unbounded (R5). -/
def RegWidth.legal : RegWidth → Bool
  | .bits n    => decide (8 ≤ n)
  | .unbounded => true

end Sys2Proof
end

