-- ==== Sys2Proof/Decode.lean ====
section
/-! DEFINITION. The dispatch table, the decoder and the encoder (30_encoding.md R50 to R64). -/

namespace Sys2Proof

/-- The dispatch table of R54: a constant, not state (10_state.md R22). The opcodes are the table's binary column. -/
def dispatchTable : List DispatchRow :=
  [ { mnemonic := .LDI, opcode := 0b10000010, format := .RI, length := 3, advance := some 3 },
    { mnemonic := .PRN, opcode := 0b01000111, format := .R,  length := 2, advance := some 2 },
    { mnemonic := .MUL, opcode := 0b10100010, format := .RR, length := 3, advance := some 3 },
    { mnemonic := .HLT, opcode := 0b00000001, format := .N,  length := 1, advance := none } ]

/-- The lookup of R74: a match on all 8 bits of the opcode byte (R55). -/
def lookupOpcode (op : Byte) : Option Mnemonic :=
  (dispatchTable.find? (fun row => row.opcode == op)).map DispatchRow.mnemonic

/-- Decode the three bytes at pc, pc+1 and pc+2 (R64); an opcode byte outside the table is refused by name (R57). -/
def decode (op a b : Byte) : Decoded :=
  match lookupOpcode op with
  | some .LDI => .instr (.ldi a b)
  | some .PRN => .instr (.prn a)
  | some .MUL => .instr (.mul a b)
  | some .HLT => .instr .hlt
  | none      => .invalidOpcode op

/-- The bytes of an instruction in ascending address order (R63, R36). -/
def encode : Instr → List Byte
  | .ldi a imm => [0x82, a, imm]
  | .prn a     => [0x47, a]
  | .mul a b   => [0xA2, a, b]
  | .hlt       => [0x01]

/-- The handler an instruction belongs to. -/
def mnemonicOf : Instr → Mnemonic
  | .ldi _ _ => .LDI
  | .prn _   => .PRN
  | .mul _ _ => .MUL
  | .hlt     => .HLT

/-- The table's row for a mnemonic (R54). -/
def rowOf (m : Mnemonic) : Option DispatchRow :=
  dispatchTable.find? (fun row => row.mnemonic == m)

/-- The length `len` of an instruction, a property of the matched handler (R50, R9). -/
def instrLength (i : Instr) : Nat :=
  match rowOf (mnemonicOf i) with
  | some row => row.length
  | none     => 0

/-- The three bytes the engine reads of an instruction given as a number whose bit 0 is the lowest bit of byte 0;
every bit above `nbits` is 0. -/
def tableBytes (nbits w : Nat) : Byte × Byte × Byte :=
  (BitVec.ofNat 8 (w % 2 ^ nbits), BitVec.ofNat 8 (w % 2 ^ nbits / 256), BitVec.ofNat 8 (w % 2 ^ nbits / 65536))

/-- What `decode` reads from such a number. -/
def decodeTableWord (nbits w : Nat) : Option Instr :=
  match tableBytes nbits w with
  | (op, a, b) =>
    match decode op a b with
    | .instr i => some i
    | .invalidOpcode _ => none

end Sys2Proof
end

