-- ==== Sys2Proof/Config.lean ====
section
/-! DEFINITION. What this hardware fixes (00_scope.md R5), and the parameters R5 leaves OPEN: those are
constants with no body, so no proof can see a value of one (log 13). -/

namespace Sys2Proof.Config

/-- `MEM_SIZE` of R5. -/
abbrev memSize : Nat := 256

/-- `NREG` of R5. -/
abbrev regCount : Nat := 8

/-- `REGW` of R5: the value this hardware takes (D1). -/
def regw : RegWidth := .bits 8

/-- `HLT_EXIT_STATUS` less one (R5, D9): the status itself is only known not to be zero. -/
opaque hltExitStatusLessOne : Nat

/-- `HLT_EXIT_STATUS` of R5 and R109: any number but zero. -/
def hltExitStatus : Nat := hltExitStatusLessOne + 1

/-- The status the host ends with after an abort, "a status the source does not give" (R109, D23). -/
opaque abortExitStatus : Nat

/-- `HALT_NOTICE_TEXT` (R5, R108). -/
opaque haltNoticeText : String

/-- `INVALID_INSTRUCTION_TEXT` (R5, R101, R108): it may name the opcode byte. -/
opaque invalidInstructionText : Byte → String

/-- `TRACE_FORMAT` (R5, R110): from pc, the three bytes and the registers. -/
opaque traceFormat : PcWord → Byte → Byte → Byte → Vector Nat 8 → String

/-- The line terminator of PRN's line, not named by the source (R89). -/
opaque lineTerminator : String

end Sys2Proof.Config
end

