-- ==== Sys2Proof/Machine/State.lean ====
section
/-! DEFINITION. The state of the engine as plain data (10_state.md R10), the reasons a step can stop, and reset. -/

namespace Sys2Proof.Machine

/-- The sequencer's state (R19). -/
inductive RunState where
  | running | halted | aborted
  deriving DecidableEq, Repr

/-- Why the run halted (R20). -/
inductive Cause where
  | none | hlt | invalidInstruction
  deriving DecidableEq, Repr

/-- The ALU's operation tags: two named values and room for others (43_alu_mul.md R92). -/
inductive AluTag where
  | mul | add
  | other (n : Nat)
  deriving DecidableEq, Repr

/-- The four error kinds of the source's taxonomy (60_exceptions.md R120). -/
inductive ErrorKind where
  | outOfRange | invalidRegister | invalidInstruction | unsupportedOperation
  deriving DecidableEq, Repr

/-- A fatal error with its info (R21): the offending address, register index or ALU tag. -/
inductive Raised where
  /-- Raised by the arbiter's `memRead` and `memWrite` (R121). -/
  | outOfRange (a : Nat)
  /-- Raised by the register multiplexer (R122). -/
  | invalidRegister (i : Byte)
  /-- Raised by the ALU (R124); no program can reach it. -/
  | unsupportedOperation (tag : AluTag)
  deriving DecidableEq, Repr

/-- The events of the output sequence (R23). -/
inductive Event where
  | print (v : Nat)
  | haltNotice
  | invalidInstructionReport (op : Byte)
  | trace (pc : PcWord) (b0 b1 b2 : Byte) (x : Vector Nat 8)
  deriving DecidableEq, Repr

/-- The memory array: the cells that do not hold 0, by rising address (`Memory.wf`); an unlisted cell holds 0, the
reset value R25 gives. -/
abbrev Memory := List Host.Cell

/-- The complete state of the engine (R10), and the launch parameter `REGW` (R5, log 1). -/
structure State where
  /-- 256 cells of one byte (R30, R31). -/
  mem   : Memory
  /-- The register bank, R0 to R7; each holds a `regval` (R11, R7). -/
  x     : Vector Nat 8
  /-- The program counter (R14). -/
  pc    : PcWord
  /-- The memory address shadow register (R17). -/
  mar   : Byte
  /-- The memory data shadow register (R18). -/
  mdr   : Byte
  /-- The sequencer's state (R19). -/
  run   : RunState
  /-- Why the run halted (R20). -/
  cause : Cause
  /-- The record of a fatal error (R21). -/
  fault : Option Raised
  /-- The output sequence, first event first (R23). -/
  out   : List Event
  /-- `REGW`: a parameter of the run (R26), which no operation writes (log 1). -/
  regw  : RegWidth
  deriving DecidableEq, Repr

/-- The answer of an operation that may raise (00_scope.md R8): a value and the state after it, or the error and the
state at the point it was raised, nothing already written discarded. -/
inductive Attempt (α : Type) where
  | done (value : α) (s : State)
  | raised (e : Raised) (s : State)
  deriving DecidableEq, Repr

/-- Why a step stops with a fault. -/
inductive Fault where
  /-- Answered by `step` in a state whose run is Aborted: no step exists there (R70), and R128 has a model treat
  Aborted as its fault outcome. It carries the recorded error. Safe: nothing can be proved of a next state. -/
  | aborted (record : Option Raised)
  deriving DecidableEq, Repr

/-- Why something is given no meaning. -/
inductive Refusal where
  /-- An instruction without a meaning yet; no arm of `exec` answers it. Safe. -/
  | notModelled (mnemonic : String)
  /-- Answered by `load`, `loadThroughArbiter` and `launch`: an image longer than 256 bytes (45_host_interface.md R106, D11). Safe. -/
  | imageTooLong (length : Nat)
  /-- Answered by `launch`: an image value outside [0,256) (R106, D11). Safe. -/
  | imageValueNotByte
  /-- Answered by `launch` and `preload`: a register value that is no `regval` (R107). Safe. -/
  | registerValueNotRegval
  /-- Answered by `launch`: a `REGW` below 8 (R5). Safe. -/
  | registerWidthTooSmall
  /-- Answered by `presentWrite`: a value outside [0,256) presented to the arbiter (20_memory.md R31, D17). Safe. -/
  | writeValueNotByte (v : Nat)
  /-- Answered by `trace`: the run has ended, and a trace runs only between steps (R110, log 9). Safe. -/
  | traceAfterRun
  /-- Answered by `preload`, `load`, `loadThroughArbiter` and `presentWrite`: the run has begun or has ended, and the host
  has no such move then (R107, R113, log 23). Safe. -/
  | runHasBegun
  deriving DecidableEq, Repr

/-- The parameters of a launch (10_state.md R26, 00_scope.md R5); image and register values are numbers, so that a
launch the spec refuses (R106) can be written. -/
structure Launch where
  image   : List Nat
  regInit : Vector Nat 8
  marInit : Byte
  mdrInit : Byte
  regw    : RegWidth
  deriving DecidableEq, Repr

/-- What the host driver owes at the end of a run (R109). -/
inductive HostEnd where
  | normally
  | abnormally (status : Nat)
  deriving DecidableEq, Repr

/-- Construction of the engine: the values of R25, before the image is loaded. -/
def State.construct (p : Launch) : State where
  mem   := []
  x     := p.regInit
  pc    := 0
  mar   := p.marInit
  mdr   := p.mdrInit
  run   := .running
  cause := .none
  fault := none
  out   := []
  regw  := p.regw

/-- The launch with no program and the named defaults: `REG_INIT` all 0 (D2, log 2), `MAR_INIT` and `MDR_INIT` 0
(DESIGN CHOICE, log 3), `REGW` of this hardware. -/
def Launch.default : Launch where
  image   := []
  regInit := Vector.replicate 8 0
  marInit := 0
  mdrInit := 0
  regw    := Config.regw

/-- The machine right after reset (R25, R140). -/
def State.reset : State := State.construct Launch.default

end Sys2Proof.Machine
end

