-- ==== Sys2Proof/Machine/Flags.lean ====
section
/-! DEFINITION. There are no flags, condition codes or predicates (10_state.md R16): overflow and carry are recorded
nowhere. What stands here is the one thing that happens to an arithmetic result, its reduction to a `regval`. -/

namespace Sys2Proof.Machine

/-- `v` is a `regval` at the width (00_scope.md R7). -/
def isRegval : RegWidth → Nat → Bool
  | .bits n,    v => decide (v < 2 ^ n)
  | .unbounded, _ => true

/-- `norm` of R7: modulo 2^REGW, or nothing where the width is unbounded (43_alu_mul.md R97). -/
def normReg : RegWidth → Nat → Nat
  | .bits n,    v => v % 2 ^ n
  | .unbounded, v => v

end Sys2Proof.Machine
end

