-- ==== Sys2Proof/Machine/Ops.lean ====
section
/-! DEFINITION. The named operations: memory cells and the arbiter (20_memory.md), events, the entry to Aborted
(60_exceptions.md R128), the clean halt, and the end of a step. There is no return from an error (R130). -/

namespace Sys2Proof.Machine

/-- The canonical form of a memory: rising addresses inside [0,256), no cell listed that holds 0. -/
def Memory.wf (m : Memory) : Bool :=
  decide (m.Pairwise (fun p q => p.1 < q.1)) && m.all (fun c => decide (c.1 < Config.memSize ∧ c.2 ≠ 0))

/-- The byte a cell holds; a cell not listed holds 0 (R25, R49). -/
def readCell : Memory → Nat → Byte
  | [], _ => 0
  | (b, w) :: m, a => if a = b then w else readCell m a

/-- Store a byte in a cell, keeping the canonical form. -/
def writeCell : Memory → Nat → Byte → Memory
  | [], a, v => if v = 0 then [] else [(a, v)]
  | (b, w) :: m, a, v =>
    if a < b then (if v = 0 then (b, w) :: m else (a, v) :: (b, w) :: m)
    else if a = b then (if v = 0 then m else (a, v) :: m)
    else (b, w) :: writeCell m a v

/-- Statements run in the order written, and a raise abandons the rest (00_scope.md R8). -/
def andThen {α β : Type} (r : Attempt α) (f : α → State → Attempt β) : Attempt β :=
  match r with
  | .done v s   => f v s
  | .raised e s => .raised e s

/-- `MemRead(a, 1)` (R32): the whole address is compared (R34), and a failing access changes nothing (R35). -/
def memRead (a : Nat) (s : State) : Attempt Byte :=
  if a < Config.memSize then
    .done (readCell s.mem a) { s with mar := BitVec.ofNat 8 a, mdr := readCell s.mem a }
  else .raised (.outOfRange a) s

/-- `MemWrite(a, 1, v)` (R33): it returns the stored value. -/
def memWrite (a : Nat) (v : Byte) (s : State) : Attempt Byte :=
  if a < Config.memSize then
    .done v { s with mem := writeCell s.mem a v, mar := BitVec.ofNat 8 a, mdr := v }
  else .raised (.outOfRange a) s

/-- The three reads at pc, pc+1 and pc+2, in ascending order, of a fetch (40_step_fetch_decode_dispatch.md R71 to R73)
and of a trace (45_host_interface.md R110). The addresses are sums of numbers: they do not wrap (R14, R34). -/
def readThree (s : State) : Attempt (Byte × Byte × Byte) :=
  andThen (memRead s.pc.toNat s) fun op s1 =>
  andThen (memRead (s.pc.toNat + 1) s1) fun a s2 =>
  andThen (memRead (s.pc.toNat + 2) s2) fun b s3 =>
  .done (op, a, b) s3

/-- `emit e` (R8, R23): append at the end. -/
def emit (e : Event) (s : State) : State := { s with out := s.out ++ [e] }

/-- Entry of a fatal error (60_exceptions.md R128): the run is Aborted and the error recorded; nothing else is written,
no state is saved and control goes nowhere. -/
def abortRun (e : Raised) (s : State) : State := { s with run := .aborted, fault := some e }

/-- The clean halt shared by HLT (R100) and the invalid opcode (R101). -/
def halt (c : Cause) (e : Event) (s : State) : State :=
  { emit e s with run := .halted, cause := c }

/-- The last action of a step that is still Running after its handler (R77): add the handler's `adv`, in 9 bits. -/
def advancePc (adv : PcWord) (s : State) : State :=
  if s.run = .running then { s with pc := s.pc + adv } else s

/-- The end of a step: what its handler answered, with the advance it declared (R75, R77), or the entry to Aborted
(R128). -/
def finish (r : Attempt PcWord) : Host.Outcome State Fault Refusal :=
  match r with
  | .done adv s => .next (advancePc adv s)
  | .raised e s => .next (abortRun e s)

/-- The kind of a recorded fatal error (R21). -/
def raisedKind : Raised → ErrorKind
  | .outOfRange _ => .outOfRange
  | .invalidRegister _ => .invalidRegister
  | .unsupportedOperation _ => .unsupportedOperation

/-- The kind of error a state reports, if any: the recorded fatal kind, or `InvalidInstruction` where that caused the
halt (R120, R123). -/
def reportedKind (s : State) : Option ErrorKind :=
  match s.fault with
  | some e => some (raisedKind e)
  | none => if s.cause = .invalidInstruction then some .invalidInstruction else none

/-- The numeric codes of R125 (D6). -/
def errorCode : Option ErrorKind → Nat
  | none => 0
  | some .outOfRange => 1
  | some .invalidRegister => 2
  | some .invalidInstruction => 3
  | some .unsupportedOperation => 4

/-- Bytes placed in memory from an address on, outside the arbiter; what would lie beyond the last cell is dropped. -/
def placeBytes : Nat → List Byte → Memory → Memory
  | _, [], m => m
  | k, v :: vs, m => placeBytes (k + 1) vs (if k < Config.memSize then writeCell m k v else m)

end Sys2Proof.Machine
end

