-- ==== Sys2Proof/Machine/Operands.lean ====
section
/-! DEFINITION. The operand forms: a register through the multiplexer (10_state.md R12, 30_encoding.md R52) and the
immediate of LDI (R53). -/

namespace Sys2Proof.Machine

/-- The multiplexer's `get` (R12): the whole operand byte is the index. -/
def regGet (i : Byte) (s : State) : Attempt Nat :=
  if h : i.toNat < Config.regCount then .done (s.x[i.toNat]) s else .raised (.invalidRegister i) s

/-- The multiplexer's `set` (R12): that one register and nothing else. -/
def regSet (i : Byte) (v : Nat) (s : State) : Attempt Unit :=
  if h : i.toNat < Config.regCount then .done () { s with x := s.x.set i.toNat v h }
  else .raised (.invalidRegister i) s

/-- `zext_REGW` of an immediate (R53, R7): a widening, no bit changes. -/
def zextReg (b : Byte) : Nat := b.toNat

end Sys2Proof.Machine
end

