-- ==== Sys2Proof/Machine/Alu.lean ====
section
/-! DEFINITION. The ALU and its family: MUL (43_alu_mul.md). -/

namespace Sys2Proof.Machine

/-- The part ADD and MUL share (R92): read the first register, then the second, then write the first with the reduced
result of `f`. -/
def aluBinary (f : Nat → Nat → Nat) (a b : Byte) (s : State) : Attempt Unit :=
  andThen (regGet a s) fun va s1 =>
  andThen (regGet b s1) fun vb s2 =>
  regSet a (normReg s2.regw (f va vb)) s2

/-- `AluApply(tag, a, b)` (R92): the tag is examined before any register (R95). -/
def aluApply (tag : AluTag) (a b : Byte) (s : State) : Attempt Unit :=
  match tag with
  | .mul => aluBinary (fun u v => u * v) a b s
  | .add => aluBinary (fun u v => u + v) a b s
  | .other n => .raised (.unsupportedOperation (.other n)) s

/-- The handler of MUL (R96): the ALU with the constant tag MUL, declare 3. -/
def handleMul (a b : Byte) (s : State) : Attempt PcWord :=
  andThen (aluApply .mul a b s) fun _ s1 => .done 3 s1

/-- MUL (R96). -/
def execMul (a b : Byte) (s : State) : Host.Outcome State Fault Refusal := finish (handleMul a b s)

end Sys2Proof.Machine
end

