-- ==== Sys2Proof/Machine/Load.lean ====
section
/-! DEFINITION. The load family: LDI (41_ldi.md). -/

namespace Sys2Proof.Machine

/-- The handler of LDI (R85): write the immediate, declare 3. -/
def handleLdi (a imm : Byte) (s : State) : Attempt PcWord :=
  andThen (regSet a (zextReg imm) s) fun _ s1 => .done 3 s1

/-- LDI (R85). -/
def execLdi (a imm : Byte) (s : State) : Host.Outcome State Fault Refusal := finish (handleLdi a imm s)

end Sys2Proof.Machine
end

