-- ==== Sys2Proof/Machine/Output.lean ====
section
/-! DEFINITION. The output family: PRN (42_prn.md). -/

namespace Sys2Proof.Machine

/-- The handler of PRN (R88): emit the register's value, declare 2. -/
def handlePrn (a : Byte) (s : State) : Attempt PcWord :=
  andThen (regGet a s) fun v s1 => .done 2 (emit (.print v) s1)

/-- PRN (R88). -/
def execPrn (a : Byte) (s : State) : Host.Outcome State Fault Refusal := finish (handlePrn a s)

end Sys2Proof.Machine
end

