-- ==== Sys2Proof/Machine/System.lean ====
section
/-! DEFINITION. The system family: HLT, and what the engine does with an opcode outside the dispatch table
(44_hlt_and_invalid.md). -/

namespace Sys2Proof.Machine

/-- The handler of HLT (R100): no `adv` is set, so it stays 0 (10_state.md R24). -/
def handleHlt (s : State) : Attempt PcWord := .done 0 (halt .hlt .haltNotice s)

/-- HLT (R100). -/
def execHlt (s : State) : Host.Outcome State Fault Refusal := finish (handleHlt s)

/-- `Invalid(op)` (R101): `adv` stays 0 and pc is not advanced. -/
def handleInvalid (op : Byte) (s : State) : Attempt PcWord :=
  .done 0 (halt .invalidInstruction (.invalidInstructionReport op) s)

/-- The step's outcome for an opcode that is not found (R76, R101). -/
def execInvalid (op : Byte) (s : State) : Host.Outcome State Fault Refusal := finish (handleInvalid op s)

end Sys2Proof.Machine
end

