-- ==== Sys2Proof/Machine/Dispatch.lean ====
section
/-! DEFINITION. Invoking the handler of a decoded instruction (40_step_fetch_decode_dispatch.md R75): one arm per row. -/

namespace Sys2Proof.Machine

def exec (i : Instr) (s : State) : Host.Outcome State Fault Refusal :=
  match i with
  | .ldi a imm => Sys2Proof.Machine.execLdi a imm s
  | .prn a => Sys2Proof.Machine.execPrn a s
  | .mul a b => Sys2Proof.Machine.execMul a b s
  | .hlt => Sys2Proof.Machine.execHlt s

end Sys2Proof.Machine
end

