-- ==== Sys2Proof/Machine/Sequencer.lean ====
section
/-! DEFINITION. The sequencer: fetch, decode, dispatch, advance (40_step_fetch_decode_dispatch.md R70 to R80), and where
the next instruction's bytes lie. -/

namespace Sys2Proof.Machine

/-- One step of a running engine (R80): the three reads first, then the lookup, then the handler. -/
def runningStep (s : State) : Host.Outcome State Fault Refusal :=
  match readThree s with
  | .raised e s1 => .next (abortRun e s1)
  | .done (op, a, b) s1 =>
    match decode op a b with
    | .instr i => exec i s1
    | .invalidOpcode o => execInvalid o s1

/-- One step (R70): from Halted no step exists and the state does not change; Aborted is the fault outcome (R128,
log 4). -/
def sequencerStep (s : State) : Host.Outcome State Fault Refusal :=
  match s.run with
  | .running => runningStep s
  | .halted  => .next s
  | .aborted => .fault (.aborted s.fault)

/-- The bytes of one instruction placed where the next fetch reads: at pc, pc+1 and pc+2 (log 10). -/
def placeInstr (s : State) (nbits w : Nat) : State :=
  match tableBytes nbits w with
  | (op, a, b) => { s with mem := placeBytes s.pc.toNat [op, a, b] s.mem }

end Sys2Proof.Machine
end

