-- ==== Sys2Proof/Machine/Step.lean ====
section
/-! DEFINITION. The step of the machine, and an instruction's bytes placed where it fetches next. -/

namespace Sys2Proof.Machine

/-- One step of the engine (40_step_fetch_decode_dispatch.md R80). -/
def step (s : State) : Host.Outcome State Fault Refusal := sequencerStep s

/-- The state with the instruction whose table bits are `w` stored at pc (log 10). -/
def State.withFetchWord (s : State) (nbits w : Nat) : State := placeInstr s nbits w

end Sys2Proof.Machine
end

