-- ==== Sys2Proof/Machine/HostInterface.lean ====
section
/-! DEFINITION. What crosses the boundary of the engine (45_host_interface.md): loader, launch, run, trace, what the host
driver owes at the end, and the rendering of events. -/

namespace Sys2Proof.Machine

/-- No step of the run has been made: the engine is Running at the reset value of pc. No step leaves it there, because
every step that stays Running adds 2 or 3 to a pc of at most 253 (R78, log 23). -/
abbrev BeforeRun (s : State) : Prop := s.run = .running ∧ s.pc = 0

/-- The host writes memory and registers before the run only (R107, R113, R141): once a step has been made, and after the
run has ended, it has no such move, and the access is refused by name with nothing changed (log 23). -/
def beforeRunOnly (s : State) (o : Host.Outcome State Fault Refusal) : Host.Outcome State Fault Refusal :=
  if BeforeRun s then o else .refused .runHasBegun

/-- The end of an access of the host's: its effect, or the entry to Aborted where it raises (60_exceptions.md R128). -/
def settle {α : Type} (r : Attempt α) : Host.Outcome State Fault Refusal :=
  match r with
  | .done _ s   => .next s
  | .raised e s => .next (abortRun e s)

/-- The image placed at address 0, in order, without gaps (R105); nothing but memory changes (log 11). -/
def placeImage (image : List Byte) (s : State) : State := { s with mem := placeBytes 0 image s.mem }

/-- Each byte through the arbiter's `memWrite`, from address `k` on: the other design of a loader R105 leaves open. -/
def writeImage : Nat → List Byte → State → Attempt Unit
  | _, [], s => .done () s
  | k, v :: vs, s => andThen (memWrite k v s) fun _ s1 => writeImage (k + 1) vs s1

/-- Load the image (R105), before the run; one longer than 256 bytes is refused (R106). -/
def load (image : List Byte) (s : State) : Host.Outcome State Fault Refusal :=
  beforeRunOnly s
    (if Config.memSize < image.length then .refused (.imageTooLong image.length) else .next (placeImage image s))

/-- Load the image through the arbiter (R105, log 11), under the same conditions. -/
def loadThroughArbiter (image : List Byte) (s : State) : Host.Outcome State Fault Refusal :=
  beforeRunOnly s
    (if Config.memSize < image.length then .refused (.imageTooLong image.length) else settle (writeImage 0 image s))

/-- A value presented to the arbiter's write port by a test (20_memory.md R31, R48): one that is no byte is refused (D17).
The model's choice (log 23): the host may present a write before the run only, so that after the run has ended nothing it
presents, a bad address included, touches `run`, `cause` or `fault`; before the run a bad address aborts. -/
def presentWrite (a v : Nat) (s : State) : Host.Outcome State Fault Refusal :=
  if v < 256 then beforeRunOnly s (settle (memWrite a (BitVec.ofNat 8 v) s)) else .refused (.writeValueNotByte v)

/-- Preset one register before the run, through the multiplexer (R107); a bad index aborts (R122). The model's choices:
a value that is no `regval` is refused, before the index is examined (log 12), and so is a preload once the run has begun
or has ended (log 23). -/
def preload (i : Byte) (v : Nat) (s : State) : Host.Outcome State Fault Refusal :=
  beforeRunOnly s
    (if isRegval s.regw v then settle (regSet i v s) else .refused .registerValueNotRegval)

/-- The boot sequence up to the first step (70_reset_and_hazards.md R141): construction, register values, image; a
launch R106 refuses is refused. -/
def launch (p : Launch) : Host.Outcome State Fault Refusal :=
  if p.regw.legal = false then .refused .registerWidthTooSmall
  else if 256 < p.image.length then .refused (.imageTooLong p.image.length)
  else if p.image.all (fun v => decide (v < 256)) = false then .refused .imageValueNotByte
  else if p.regInit.toList.all (isRegval p.regw) = false then .refused .registerValueNotRegval
  else load (p.image.map (BitVec.ofNat 8)) (State.construct p)

/-- `run` of R112: steps until the run is no longer Running, at most `n` of them. -/
def runFor : Nat → State → State
  | 0, s => s
  | n + 1, s =>
    if s.run = .running then
      match step s with
      | .next t => runFor n t
      | .fault _ => s
      | .refused _ => s
    else s

/-- The trace operation (R110), between steps: three live reads, then the event; a failing read aborts the run. -/
def trace (s : State) : Host.Outcome State Fault Refusal :=
  if s.run = .running then
    match readThree s with
    | .done (b0, b1, b2) s1 => .next (emit (.trace s.pc b0 b1 b2 s.x) s1)
    | .raised e s1 => .next (abortRun e s1)
  else .refused .traceAfterRun

/-- How the host driver ends when it sees the state (R109); nothing is owed while the engine runs. -/
def hostEnd (s : State) : Option HostEnd :=
  match s.run with
  | .running => none
  | .aborted => some (.abnormally Config.abortExitStatus)
  | .halted =>
    match s.cause with
    | .hlt => some (.abnormally Config.hltExitStatus)
    | .invalidInstruction => some .normally
    | .none => none

/-- The decimal digits of `v`, most significant first, by at most `fuel` divisions, put before `acc`. -/
def decimalDigitsAux : Nat → Nat → List Nat → List Nat
  | 0, _, acc => acc
  | fuel + 1, v, acc => if v < 10 then v :: acc else decimalDigitsAux fuel (v / 10) (v % 10 :: acc)

/-- The decimal digits of `Print(v)` (42_prn.md R89): no sign, no leading zero, the single digit 0 for 0. -/
def decimalDigits (v : Nat) : List Nat := decimalDigitsAux (v + 1) v []

/-- The characters the host writes for an event (R89, R108); all but the digits are parameters (log 13). -/
def renderEvent : Event → String
  | .print v => String.ofList ((decimalDigits v).map Nat.digitChar) ++ Config.lineTerminator
  | .haltNotice => Config.haltNoticeText
  | .invalidInstructionReport op => Config.invalidInstructionText op
  | .trace pc b0 b1 b2 x => Config.traceFormat pc b0 b1 b2 x

end Sys2Proof.Machine
end

