-- ==== Sys2Proof/Safety.lean ====
section
/-! DEFINITION. The terms claims are stated in: the bytes a step reads, the state after a complete fetch, what holds of
every state a run reaches, and what a good end of a run is. -/

namespace Sys2Proof.Machine

/-- The byte `k` cells above pc. -/
def cellAt (s : State) (k : Nat) : Byte := readCell s.mem (s.pc.toNat + k)

/-- The state after a complete fetch or the reads of a trace: only the shadow registers have changed
(40_step_fetch_decode_dispatch.md R73). -/
def afterFetch (s : State) : State :=
  { s with mar := BitVec.ofNat 8 (s.pc.toNat + 2), mdr := cellAt s 2 }

/-- What holds of every state a run reaches. -/
structure StateInv (s : State) : Prop where
  /-- Memory is in its canonical form. -/
  mem_wf : s.mem.wf
  /-- pc takes values 0 to 256 only (R14). -/
  pc_le : s.pc.toNat ≤ 256
  /-- `REGW` is legal (R5). -/
  width_legal : s.regw.legal = true
  /-- Each register holds a `regval` (R11). -/
  regs_regval : ∀ (r : Nat) (h : r < 8), isRegval s.regw s.x[r] = true
  /-- `cause` is None while the run is not Halted, and says why when it is (R20). -/
  cause_iff : s.cause ≠ .none ↔ s.run = .halted
  /-- `fault` is None unless the run is Aborted (R21). -/
  fault_iff : s.fault ≠ none ↔ s.run = .aborted
  /-- Only the errors a program can raise are recorded, each with the info it must have (R121, R122, R124). -/
  fault_kinds : ∀ e, s.fault = some e → e = .outOfRange 256 ∨ ∃ i : Byte, 8 ≤ i.toNat ∧ e = .invalidRegister i
  /-- Printed values are `regval`s (R23). -/
  printed_regval : ∀ v, Event.print v ∈ s.out → isRegval s.regw v = true
  /-- The halt notice has been emitted exactly when HLT ended the run (R100). -/
  notice_iff : Event.haltNotice ∈ s.out ↔ s.cause = .hlt
  /-- An invalid-instruction report names an opcode outside the table, and ended the run (R101). -/
  report_invalid : ∀ op, Event.invalidInstructionReport op ∈ s.out →
    lookupOpcode op = none ∧ s.cause = .invalidInstruction

/-- A safe state: no fatal error has ended the run (60_exceptions.md R128). -/
abbrev Safe (s : State) : Prop := s.run ≠ .aborted

/-- The state as seen by one who can tell neither the shadow registers nor the trace events apart
(45_host_interface.md R110, 70_reset_and_hazards.md R146). -/
def withoutTraces (s : State) : State :=
  { s with
    mar := 0
    mdr := 0
    out := s.out.filter fun e => match e with
      | .trace _ _ _ _ _ => false
      | _ => true }

end Sys2Proof.Machine
end

