-- ==== Sys2Proof/Certificates/Slice0/Obligations.lean ====
section
/-! DEFINITION. The statements for the provers, rule by rule of spec/. Each docstring names its rules; a clause that rests
on a decision or an inference the spec marks as its own, or on a choice of the model, says so. -/

open Sys2Proof Sys2Proof.Machine

/-! ### Encoding -/

/-- 30_encoding.md R63, R58 (both derived there): three bytes decode to an instruction exactly when they begin with its
encoding; the bytes a format does not own may be anything. -/
def Obligations.DecodeReadsExactlyWhatEncodeWrites : Prop :=
  ∀ (i : Instr) (op a b : Byte), decode op a b = .instr i ↔ encode i <+: [op, a, b]

/-- 30_encoding.md R63 (derived there): two different instructions never share an encoding, nor does one encoding
begin another. -/
def Obligations.NoEncodingBeginsAnother : Prop :=
  ∀ i j : Instr, encode i <+: encode j → i = j

/-- 30_encoding.md R54: the dispatch table has the four rows of the table "to reproduce exactly", with opcode, format,
length and advance. -/
def Obligations.DispatchTableHasTheFourRows : Prop :=
  dispatchTable.length = 4 ∧
  rowOf .LDI = some { mnemonic := .LDI, opcode := 130, format := .RI, length := 3, advance := some 3 } ∧
  rowOf .PRN = some { mnemonic := .PRN, opcode := 71, format := .R, length := 2, advance := some 2 } ∧
  rowOf .MUL = some { mnemonic := .MUL, opcode := 162, format := .RR, length := 3, advance := some 3 } ∧
  rowOf .HLT = some { mnemonic := .HLT, opcode := 1, format := .N, length := 1, advance := none }

/-- A few words written out from the encodings of 30_encoding.md R54 and R63 decode to their instructions, as bytes and
as numbers whose bit 0 is the lowest bit of byte 0. -/
def Obligations.WrittenOutWordsDecode : Prop :=
  decode 0b10000010 0b00000000 0b00001000 = .instr (.ldi 0 8) ∧
  decode 0b01000111 0b00000101 0b00000001 = .instr (.prn 5) ∧
  decode 0b10100010 0b00000011 0b00000100 = .instr (.mul 3 4) ∧
  decode 0b00000001 0b11111111 0b11111111 = .instr .hlt ∧
  decodeTableWord 24 0x080082 = some (.ldi 0 8) ∧
  decodeTableWord 16 0x0547 = some (.prn 5) ∧
  decodeTableWord 8 0xA0 = none

/-- 30_encoding.md R57: every opcode byte other than 0x01, 0x47, 0x82, 0xA2 is invalid, 252 of the 256 values, and a
step that meets one does not trap: it halts with the report and no fault. -/
def Obligations.EveryOtherOpcodeHaltsTheRun : Prop :=
  ((List.range 256).filter fun n => lookupOpcode (BitVec.ofNat 8 n) == none).length = 252 ∧
  (∀ op : Byte, lookupOpcode op = none ↔ op ≠ 0x01 ∧ op ≠ 0x47 ∧ op ≠ 0x82 ∧ op ≠ 0xA2) ∧
  ∀ s : State, s.run = .running → s.pc.toNat ≤ 253 →
    cellAt s 0 ≠ 0x01 → cellAt s 0 ≠ 0x47 → cellAt s 0 ≠ 0x82 → cellAt s 0 ≠ 0xA2 →
    ∃ t, step s = .next t ∧ t.run = .halted ∧ t.cause = .invalidInstruction ∧ t.fault = s.fault ∧
      ∃ op, t.out = s.out ++ [.invalidInstructionReport op]

/-! ### Memory -/

/-- 20_memory.md R32: what `MemRead` answers and records, that it changes nothing else, and that it is idempotent; an
address outside [0,256) raises OutOfRange. -/
def Obligations.MemoryReadContract : Prop :=
  ∀ (a : Nat) (s : State),
    (a < 256 → ∃ s1, memRead a s = .done (readCell s.mem a) s1 ∧
      s1.mar.toNat = a ∧ s1.mdr = readCell s.mem a ∧ s1 = { s with mar := s1.mar, mdr := s1.mdr } ∧
      memRead a s1 = .done (readCell s.mem a) s1) ∧
    (256 ≤ a → memRead a s = .raised (.outOfRange a) s)

/-- 20_memory.md R33: what `MemWrite` answers, stores and records; a read of the cell then returns the byte, with MAR
and MDR as after the write; every other cell keeps its byte; an address outside [0,256) raises OutOfRange; and no
instruction calls it: no step changes memory. Memory is in its canonical form (a clause of StateInv). -/
def Obligations.MemoryWriteContract : Prop :=
  (∀ (a : Nat) (v : Byte) (s : State), s.mem.wf →
    (a < 256 → ∃ s1, memWrite a v s = .done v s1 ∧
      s1.mar.toNat = a ∧ s1.mdr = v ∧ s1 = { s with mem := s1.mem, mar := s1.mar, mdr := s1.mdr } ∧
      readCell s1.mem a = v ∧ (∀ c, c ≠ a → readCell s1.mem c = readCell s.mem c) ∧
      memRead a s1 = .done v s1) ∧
    (256 ≤ a → memWrite a v s = .raised (.outOfRange a) s)) ∧
  ∀ s t : State, step s = .next t → t.mem = s.mem

/-- The model's own memory representation (log 20): memories in canonical form that read alike are the same data, so
that equality of states is equality of the 256 cells of 20_memory.md R30. -/
def Obligations.MemoriesThatReadAlikeAreEqual : Prop :=
  ∀ m n : Memory, m.wf → n.wf → (∀ a, a < 256 → readCell m a = readCell n a) → m = n

/-- 20_memory.md R48. Writers: reset clears memory and the loader writes it; no step, no trace and no register preload
does. Readers: fetch and trace, which read the three cells from pc on; a handler reads none, so what `exec` answers does
not depend on memory, and a step or a trace depends only on those cells. -/
def Obligations.OnlyResetAndLoaderWriteMemory : Prop :=
  (∀ (p : Launch) (a : Nat), readCell (State.construct p).mem a = 0) ∧
  (∀ (image : List Byte) (p : Launch), image.length ≤ 256 → ∃ t, load image (State.construct p) = .next t ∧
    ∀ k, k < 256 → readCell t.mem k = image.getD k 0) ∧
  (∀ s t : State, step s = .next t → ∀ a, readCell t.mem a = readCell s.mem a) ∧
  (∀ s t : State, trace s = .next t → ∀ a, readCell t.mem a = readCell s.mem a) ∧
  (∀ (i : Byte) (v : Nat) (s t : State), preload i v s = .next t → ∀ a, readCell t.mem a = readCell s.mem a) ∧
  (∀ (i : Instr) (s t : State) (m : Memory), exec i s = .next t → exec i { s with mem := m } = .next { t with mem := m }) ∧
  ∀ (s t : State) (m : Memory),
    (∀ k, k < 3 → s.pc.toNat + k < 256 → readCell m (s.pc.toNat + k) = readCell s.mem (s.pc.toNat + k)) →
    (step s = .next t → step { s with mem := m } = .next { t with mem := m }) ∧
    (trace s = .next t → trace { s with mem := m } = .next { t with mem := m })

/-! ### Registers and the ALU -/

/-- 10_state.md R12 (its index rule is the spec's decision D12): `set` then `get` returns the value, every other
register and the rest of the state are as before; an index of 8 or more raises InvalidRegister and changes nothing. -/
def Obligations.RegisterMultiplexerContract : Prop :=
  ∀ (i : Byte) (v : Nat) (s : State),
    (i.toNat < 8 → ∃ s1, regSet i v s = .done () s1 ∧ s1 = { s with x := s1.x } ∧ regGet i s1 = .done v s1 ∧
      ∀ (r : Nat) (h : r < 8), r ≠ i.toNat → s1.x[r] = s.x[r]) ∧
    (8 ≤ i.toNat → regSet i v s = .raised (.invalidRegister i) s ∧ regGet i s = .raised (.invalidRegister i) s)

/-- 43_alu_mul.md R92 to R94 (the formula of ADD is the spec's decision D16, the reduction D1): with both registers
there, MUL and ADD put the reduced product and sum of the values BEFORE the operation in the first register, the two
registers being the same or not, and change nothing else. -/
def Obligations.AluComputesProductAndSum : Prop :=
  ∀ (a b : Byte) (s : State) (ha : a.toNat < 8) (hb : b.toNat < 8),
    (∃ t, aluApply .mul a b s = .done () t ∧ t = { s with x := t.x } ∧
      t.x[a.toNat] = normReg s.regw (s.x[a.toNat] * s.x[b.toNat]) ∧
      ∀ (r : Nat) (h : r < 8), r ≠ a.toNat → t.x[r] = s.x[r]) ∧
    ∃ t, aluApply .add a b s = .done () t ∧ t = { s with x := t.x } ∧
      t.x[a.toNat] = normReg s.regw (s.x[a.toNat] + s.x[b.toNat]) ∧
      ∀ (r : Nat) (h : r < 8), r ≠ a.toNat → t.x[r] = s.x[r]

/-- 43_alu_mul.md R92, R95 (order of checks: the spec's decisions D13, D14): the tag is examined before any register,
the first register before the second, and a raise changes nothing. -/
def Obligations.AluRaisesInTheOrderOfItsChecks : Prop :=
  ∀ (a b : Byte) (s : State),
    (∀ n, aluApply (.other n) a b s = .raised (.unsupportedOperation (.other n)) s) ∧
    (8 ≤ a.toNat → aluApply .mul a b s = .raised (.invalidRegister a) s ∧
      aluApply .add a b s = .raised (.invalidRegister a) s) ∧
    (a.toNat < 8 → 8 ≤ b.toNat → aluApply .mul a b s = .raised (.invalidRegister b) s ∧
      aluApply .add a b s = .raised (.invalidRegister b) s)

/-- 43_alu_mul.md R97 (width: the spec's decision D1): at width 8 the reduced product and sum of two register values are
those of 8-bit unsigned words, and at width unbounded they are exact. -/
def Obligations.ReductionIsArithmeticOfTheWidth : Prop :=
  (∀ u v : Byte, normReg (.bits 8) (u.toNat * v.toNat) = (u * v).toNat ∧
    normReg (.bits 8) (u.toNat + v.toNat) = (u + v).toNat) ∧
  ∀ u v : Nat, normReg .unbounded (u * v) = u * v ∧ normReg .unbounded (u + v) = u + v

/-- 43_alu_mul.md R97 (the last sentences, on the spec's decision D1): a run at width 8 and a run at width unbounded
from the same state agree, the width itself apart, as long as no register of the unbounded run reaches 256. -/
def Obligations.WidthsAgreeOnRunsWithoutOverflow : Prop :=
  ∀ (n : Nat) (s : State),
    (∀ k, k ≤ n → ∀ (r : Nat) (h : r < 8), (runFor k { s with regw := .unbounded }).x[r] < 256) →
    runFor n { s with regw := .bits 8 } = { runFor n { s with regw := .unbounded } with regw := .bits 8 }

/-! ### The four instructions, as `exec` runs them after a complete fetch -/

/-- 41_ldi.md R85 and 40_step_fetch_decode_dispatch.md R77: LDI of an existing register completes; the whole next state. -/
def Obligations.ExecLdiCompletes : Prop :=
  ∀ (s : State) (a imm : Byte) (ha : a.toNat < 8), s.run = .running →
    exec (.ldi a imm) s = .next { s with x := s.x.set a.toNat imm.toNat ha, pc := s.pc + 3 }

/-- 42_prn.md R88 and R77: PRN of an existing register completes; the whole next state. -/
def Obligations.ExecPrnCompletes : Prop :=
  ∀ (s : State) (a : Byte) (_ : a.toNat < 8), s.run = .running →
    exec (.prn a) s = .next { s with out := s.out ++ [.print (s.x[a.toNat])], pc := s.pc + 2 }

/-- 43_alu_mul.md R96 and R77 (reduction: the spec's decision D1): MUL of existing registers completes, both reads
before the write; the whole next state. -/
def Obligations.ExecMulCompletes : Prop :=
  ∀ (s : State) (a b : Byte) (ha : a.toNat < 8) (_ : b.toNat < 8), s.run = .running →
    exec (.mul a b) s =
      .next { s with x := s.x.set a.toNat (normReg s.regw (s.x[a.toNat] * s.x[b.toNat])) ha, pc := s.pc + 3 }

/-- 44_hlt_and_invalid.md R100: HLT completes from every state; the whole next state, pc as it was. -/
def Obligations.ExecHltCompletes : Prop :=
  ∀ s : State, exec .hlt s = .next { s with out := s.out ++ [.haltNotice], run := .halted, cause := .hlt }

/-- 30_encoding.md R52, 60_exceptions.md R122 and R128 (the Aborted state, its record and the order of
MUL's checks are the spec's decisions D5, D24, D13): a form that names a register that does not exist aborts with none
of its effect. -/
def Obligations.ExecOfAMissingRegisterAborts : Prop :=
  ∀ (s : State) (a b imm : Byte),
    (8 ≤ a.toNat →
      exec (.ldi a imm) s = .next { s with run := .aborted, fault := some (.invalidRegister a) } ∧
      exec (.prn a) s = .next { s with run := .aborted, fault := some (.invalidRegister a) } ∧
      exec (.mul a b) s = .next { s with run := .aborted, fault := some (.invalidRegister a) }) ∧
    (a.toNat < 8 → 8 ≤ b.toNat →
      exec (.mul a b) s = .next { s with run := .aborted, fault := some (.invalidRegister b) })

/-- The frame of every instruction in every form (10_state.md R13, R16, R17; 20_memory.md R48): every byte of memory,
MAR, MDR and the width are unchanged; a register changes only as the first operand of LDI or MUL; output grows only for
PRN and HLT; `cause` is written only by HLT, `fault` only where a register does not exist. -/
def Obligations.InstructionFrame : Prop :=
  ∀ (i : Instr) (s t : State), exec i s = .next t →
    (∀ a, readCell t.mem a = readCell s.mem a) ∧ t.mar = s.mar ∧ t.mdr = s.mdr ∧ t.regw = s.regw ∧
    (∀ (r : Nat) (h : r < 8), t.x[r] ≠ s.x[r] →
      (∃ a imm : Byte, i = .ldi a imm ∧ r = a.toNat) ∨ ∃ a b : Byte, i = .mul a b ∧ r = a.toNat) ∧
    (t.out ≠ s.out → (∃ a, i = .prn a) ∨ i = .hlt) ∧
    (t.cause ≠ s.cause → i = .hlt) ∧
    (t.fault ≠ s.fault → i.wf = false) ∧
    (t.run ≠ s.run → i = .hlt ∨ i.wf = false)

/-- 43_alu_mul.md R97 (on the spec's decision D1): `MUL Ra,Rb` and `MUL Rb,Ra` differ only in which register receives
the result: both receive the same value, every register but the receiving one keeps its value, and nothing else differs. -/
def Obligations.MulOperandsCommuteInValue : Prop :=
  ∀ (s : State) (a b : Byte) (_ : a.toNat < 8) (_ : b.toNat < 8), s.run = .running →
    ∃ t u, exec (.mul a b) s = .next t ∧ exec (.mul b a) s = .next u ∧ t.x[a.toNat] = u.x[b.toNat] ∧
      (∀ (r : Nat) (h : r < 8), r ≠ a.toNat → t.x[r] = s.x[r]) ∧
      (∀ (r : Nat) (h : r < 8), r ≠ b.toNat → u.x[r] = s.x[r]) ∧
      u = { t with x := u.x }

/-! ### The step -/

/-- 40_step_fetch_decode_dispatch.md R75, R80: where the bytes at pc decode to an instruction, a step is that
instruction's `exec` at the state after the fetch, in which MAR and MDR hold the last read. -/
def Obligations.StepRunsTheDecodedInstruction : Prop :=
  ∀ (s : State) (i : Instr), s.run = .running → s.pc.toNat ≤ 253 →
    decode (readCell s.mem s.pc.toNat) (readCell s.mem (s.pc.toNat + 1)) (readCell s.mem (s.pc.toNat + 2)) = .instr i →
    step s = exec i { s with
      mar := BitVec.ofNat 8 (s.pc.toNat + 2)
      mdr := readCell s.mem (s.pc.toNat + 2) }

/-- 41_ldi.md R85, whole, as one step: the register, pc, MAR and MDR, nothing emitted, nothing else changed; with a
register of 8 or more no register is written, pc is unchanged and the run is aborted; at 253 it completes and the
following step aborts; at 254 and 255 the handler is never reached. -/
def Obligations.LdiStep : Prop :=
  ∀ s : State, s.run = .running → cellAt s 0 = 0x82 →
    (s.pc.toNat ≤ 253 → (ha : (cellAt s 1).toNat < 8) → ∃ t, step s = .next t ∧
      t.x = s.x.set (cellAt s 1).toNat (cellAt s 2).toNat ha ∧ t.pc.toNat = s.pc.toNat + 3 ∧
      t.mar.toNat = s.pc.toNat + 2 ∧ t.mdr = cellAt s 2 ∧
      t = { s with x := t.x, pc := t.pc, mar := t.mar, mdr := t.mdr } ∧
      (s.pc.toNat = 253 → t.pc.toNat = 256 ∧ ∃ u, step t = .next u ∧ u.run = .aborted)) ∧
    (s.pc.toNat ≤ 253 → 8 ≤ (cellAt s 1).toNat → ∃ t, step s = .next t ∧
      t.x = s.x ∧ t.pc = s.pc ∧ t.out = s.out ∧ t.mem = s.mem ∧ t.run = .aborted) ∧
    (s.pc.toNat = 254 ∨ s.pc.toNat = 255 → ∃ t, step s = .next t ∧ t.x = s.x ∧ t.run = .aborted)

/-- 42_prn.md R88, whole, as one step: one Print event with the register's value, pc, MAR and MDR, nothing else; with a
register of 8 or more nothing is emitted, pc is unchanged and the run is aborted; at 254, although its two bytes are in
range, and at 255 it never executes. -/
def Obligations.PrnStep : Prop :=
  ∀ s : State, s.run = .running → cellAt s 0 = 0x47 →
    (s.pc.toNat ≤ 253 → (_ : (cellAt s 1).toNat < 8) → ∃ t, step s = .next t ∧
      t.out = s.out ++ [.print (s.x[(cellAt s 1).toNat])] ∧ t.pc.toNat = s.pc.toNat + 2 ∧
      t.mar.toNat = s.pc.toNat + 2 ∧ t.mdr = cellAt s 2 ∧
      t = { s with out := t.out, pc := t.pc, mar := t.mar, mdr := t.mdr }) ∧
    (s.pc.toNat ≤ 253 → 8 ≤ (cellAt s 1).toNat → ∃ t, step s = .next t ∧
      t.out = s.out ∧ t.pc = s.pc ∧ t.x = s.x ∧ t.mem = s.mem ∧ t.run = .aborted) ∧
    (s.pc.toNat = 254 ∨ s.pc.toNat = 255 → ∃ t, step s = .next t ∧ t.out = s.out ∧ t.run = .aborted)

/-- 43_alu_mul.md R96 as one step (the reduction is the spec's decision D1, the order of the two checks D13): the
product in the first register, also where both operands are the same register; with a bad register none is written,
pc is unchanged and the run is aborted with the first bad index recorded. -/
def Obligations.MulStep : Prop :=
  ∀ s : State, s.run = .running → s.pc.toNat ≤ 253 → cellAt s 0 = 0xA2 →
    ((ha : (cellAt s 1).toNat < 8) → (_ : (cellAt s 2).toNat < 8) → ∃ t, step s = .next t ∧
      t.x = s.x.set (cellAt s 1).toNat
        (normReg s.regw (s.x[(cellAt s 1).toNat] * s.x[(cellAt s 2).toNat])) ha ∧
      t.pc.toNat = s.pc.toNat + 3 ∧ t.mar.toNat = s.pc.toNat + 2 ∧ t.mdr = cellAt s 2 ∧
      t = { s with x := t.x, pc := t.pc, mar := t.mar, mdr := t.mdr }) ∧
    (8 ≤ (cellAt s 1).toNat ∨ 8 ≤ (cellAt s 2).toNat → ∃ t, step s = .next t ∧
      t.x = s.x ∧ t.pc = s.pc ∧ t.out = s.out ∧ t.mem = s.mem ∧ t.run = .aborted ∧
      t.fault = some (.invalidRegister (if 8 ≤ (cellAt s 1).toNat then cellAt s 1 else cellAt s 2)))

/-- 44_hlt_and_invalid.md R100, whole, as one step: the halt notice, Halted with cause HLT, pc at the HLT byte, MAR and
MDR from the fetch, no register and no cell changed, and no further step in a run of any length; at 254 and 255 HLT is never reached and no
notice is emitted. -/
def Obligations.HltStep : Prop :=
  ∀ s : State, s.run = .running → cellAt s 0 = 0x01 →
    (s.pc.toNat ≤ 253 → ∃ t, step s = .next t ∧
      t.out = s.out ++ [.haltNotice] ∧ t.run = .halted ∧ t.cause = .hlt ∧ t.pc = s.pc ∧
      t.mar.toNat = s.pc.toNat + 2 ∧ t.mdr = cellAt s 2 ∧
      t = { s with out := t.out, run := t.run, cause := t.cause, mar := t.mar, mdr := t.mdr } ∧
      ∀ n, runFor n t = t) ∧
    (s.pc.toNat = 254 ∨ s.pc.toNat = 255 → ∃ t, step s = .next t ∧ t.run = .aborted ∧ t.out = s.out)

/-- 44_hlt_and_invalid.md R101 as one step (that pc stays and that the event carries the opcode are the spec's decisions
D8, D10): the whole next state, whatever the two bytes after the opcode hold. -/
def Obligations.InvalidOpcodeStep : Prop :=
  ∀ s : State, s.run = .running → s.pc.toNat ≤ 253 → lookupOpcode (cellAt s 0) = none →
    step s = .next { s with
      out := s.out ++ [.invalidInstructionReport (cellAt s 0)]
      run := .halted
      cause := .invalidInstruction
      mar := BitVec.ofNat 8 (s.pc.toNat + 2)
      mdr := cellAt s 2 }

/-- 40_step_fetch_decode_dispatch.md R81, the PC advance law: for every opcode of the table, a step that does not abort
adds exactly the instruction size to pc, and HLT leaves it unchanged. -/
def Obligations.PcAdvanceLaw : Prop :=
  ∀ s t : State, s.run = .running → step s = .next t → t.run ≠ .aborted →
    (cellAt s 0 = 0x82 → t.pc.toNat = s.pc.toNat + 3) ∧
    (cellAt s 0 = 0x47 → t.pc.toNat = s.pc.toNat + 2) ∧
    (cellAt s 0 = 0xA2 → t.pc.toNat = s.pc.toNat + 3) ∧
    (cellAt s 0 = 0x01 → t.pc = s.pc)

/-- 70_reset_and_hazards.md R145: an instruction executes only if its opcode byte lies at address 253 or below, whatever
its length; above, the run aborts with OutOfRange(256) whatever the bytes are; at or below, no step ends so; and a run
that ends by HLT has its HLT at or below 253. -/
def Obligations.InstructionsExecuteOnlyAt253OrBelow : Prop :=
  ∀ s : State, s.run = .running → s.fault = none → s.pc.toNat ≤ 256 →
    (254 ≤ s.pc.toNat → ∃ t, step s = .next t ∧ t.run = .aborted ∧ t.fault = some (.outOfRange 256)) ∧
    (s.pc.toNat ≤ 253 → ∀ t, step s = .next t → ∀ a, t.fault ≠ some (.outOfRange a)) ∧
    ∀ t, step s = .next t → t.run = .halted → s.pc.toNat ≤ 253

/-- 40_step_fetch_decode_dispatch.md R73 (the ascending order is the spec's decision D15, the rest derived there): the
shadow registers at the end of a step, for every opcode; they are those of the last read that succeeded. -/
def Obligations.ShadowRegistersHoldTheLastRead : Prop :=
  ∀ s t : State, s.run = .running → step s = .next t →
    (s.pc.toNat ≤ 253 → t.mar.toNat = s.pc.toNat + 2 ∧ t.mdr = readCell s.mem (s.pc.toNat + 2)) ∧
    (s.pc.toNat = 254 ∨ s.pc.toNat = 255 → t.mar.toNat = 255 ∧ t.mdr = readCell s.mem 255) ∧
    (s.pc.toNat = 256 → t.mar = s.mar ∧ t.mdr = s.mdr)

/-- 10_state.md R13 (derived there): a register keeps its value until an LDI or MUL names it as first operand. -/
def Obligations.RegistersChangeOnlyAsFirstOperand : Prop :=
  ∀ (s t : State) (r : Nat) (h : r < 8), step s = .next t → t.x[r] ≠ s.x[r] →
    s.run = .running ∧ s.pc.toNat ≤ 253 ∧ (cellAt s 1).toNat = r ∧
      (cellAt s 0 = 0x82 ∨ cellAt s 0 = 0xA2 ∧ (cellAt s 2).toNat < 8)

/-- 10_state.md R23 (one ordered sequence is the spec's decision D10): a step appends at most one event at the end, no
trace among them, none where it aborts, and never removes or changes one. -/
def Obligations.OutputGrowsByAtMostOneEvent : Prop :=
  ∀ s t : State, step s = .next t →
    ∃ es, t.out = s.out ++ es ∧ es.length ≤ 1 ∧ (t.run = .aborted → es = []) ∧
      (∀ pc b0 b1 b2 x, Event.trace pc b0 b1 b2 x ∉ es) ∧
      (es ≠ [] → s.run = .running ∧ (cellAt s 0 = 0x47 ∨ t.run = .halted))

/-- 10_state.md R19, R20 (Aborted and `cause` are the spec's decisions D5, D9): the transitions of the sequencer, each
exactly when its reason holds. -/
def Obligations.SequencerTransitions : Prop :=
  ∀ s t : State, s.run = .running → s.cause = .none → step s = .next t →
    (t.run = .halted ∧ t.cause = .hlt ↔ s.pc.toNat ≤ 253 ∧ cellAt s 0 = 0x01) ∧
    (t.run = .halted ∧ t.cause = .invalidInstruction ↔ s.pc.toNat ≤ 253 ∧ lookupOpcode (cellAt s 0) = none) ∧
    (t.run = .aborted ↔ 253 < s.pc.toNat ∨
      (cellAt s 0 = 0x82 ∨ cellAt s 0 = 0x47 ∨ cellAt s 0 = 0xA2) ∧ 8 ≤ (cellAt s 1).toNat ∨
      cellAt s 0 = 0xA2 ∧ 8 ≤ (cellAt s 2).toNat) ∧
    (t.run = .running → t.cause = .none ∧ (t.pc.toNat = s.pc.toNat + 2 ∨ t.pc.toNat = s.pc.toNat + 3))

/-- 40_step_fetch_decode_dispatch.md R70 (the spec's decision D21) with the model's choice of log 4: a step from Halted
changes nothing; Aborted is the fault outcome, as 60_exceptions.md R128 asks of a model. -/
def Obligations.TerminalStatesAreFrozen : Prop :=
  ∀ s : State, (s.run = .halted → step s = .next s) ∧ (s.run = .aborted → step s = .fault (.aborted s.fault))

/-- 40_step_fetch_decode_dispatch.md R79 and 60_exceptions.md R128, R129 (the spec's decision D5): a step that ends in
Aborted leaves everything but the shadow registers, `run` and `fault` exactly as it was, and records an error. -/
def Obligations.AbortsArePrecise : Prop :=
  ∀ s t : State, s.run = .running → step s = .next t → t.run = .aborted →
    t = { s with mar := t.mar, mdr := t.mdr, run := .aborted, fault := t.fault } ∧ t.fault ≠ none

/-- 60_exceptions.md R127, R125 (orders, info and codes are the spec's decisions D13, D15, D24, D6): a step reports the
first error met: the fetch, the lookup, the first operand, the second operand of MUL. -/
def Obligations.FirstFailingCheckIsReported : Prop :=
  ∀ s : State, s.run = .running → s.pc.toNat ≤ 256 → s.fault = none → s.cause = .none →
    ∃ t, step s = .next t ∧
      t.fault =
        (if 254 ≤ s.pc.toNat then some (.outOfRange 256)
        else if lookupOpcode (cellAt s 0) = none then none
        else if cellAt s 0 = 0x01 then none
        else if 8 ≤ (cellAt s 1).toNat then some (.invalidRegister (cellAt s 1))
        else if cellAt s 0 = 0xA2 ∧ 8 ≤ (cellAt s 2).toNat then some (.invalidRegister (cellAt s 2))
        else none) ∧
      errorCode (reportedKind t) =
        (if 254 ≤ s.pc.toNat then 1
        else if lookupOpcode (cellAt s 0) = none then 3
        else if cellAt s 0 = 0x01 then 0
        else if 8 ≤ (cellAt s 1).toNat then 2
        else if cellAt s 0 = 0xA2 ∧ 8 ≤ (cellAt s 2).toNat then 2
        else 0)

/-- 60_exceptions.md R121: OutOfRange is raised by the arbiter for an address outside [0,256); in a run it arises only
in the fetch of a step or in a trace, only with pc in 254 to 256, always with 256, and aborts the run; no handler
raises it. -/
def Obligations.OutOfRangeArisesOnlyAtTheTopOfMemory : Prop :=
  (∀ (a : Nat) (v : Byte) (s : State), 256 ≤ a →
    memRead a s = .raised (.outOfRange a) s ∧ memWrite a v s = .raised (.outOfRange a) s) ∧
  (∀ (s t : State) (a : Nat), StateInv s → s.run = .running → step s = .next t ∨ trace s = .next t →
    t.fault = some (.outOfRange a) →
    a = 256 ∧ (s.pc.toNat = 254 ∨ s.pc.toNat = 255 ∨ s.pc.toNat = 256) ∧ t.run = .aborted) ∧
  ∀ (i : Instr) (s t : State) (a : Nat), s.fault = none → exec i s = .next t → t.fault ≠ some (.outOfRange a)

/-! ### Observation and trace -/

/-- 10_state.md R17, R18 and 70_reset_and_hazards.md R146: MAR and MDR are never consulted. A run from other values of
them differs in nothing else, and not even in them once a read has succeeded. Every value of `MAR_INIT` and `MDR_INIT`
is covered (the spec's decision D3). -/
def Obligations.ShadowRegistersAreNeverConsulted : Prop :=
  ∀ (n : Nat) (s : State) (m d : Byte),
    (∃ m' d', runFor n { s with mar := m, mdr := d } = { runFor n s with mar := m', mdr := d' }) ∧
    (0 < n → s.run = .running → s.pc.toNat ≤ 255 → runFor n { s with mar := m, mdr := d } = runFor n s)

/-- 45_host_interface.md R110 (the order of its reads and its abort are the spec's decision D15; that it needs a running
engine is the model's choice of log 9): what a trace changes, and that at the top of memory it aborts the run exactly
as the next step would, emitting nothing. -/
def Obligations.TraceEffect : Prop :=
  ∀ s : State,
    (s.run = .running → s.pc.toNat ≤ 253 → trace s = .next { s with
      mar := BitVec.ofNat 8 (s.pc.toNat + 2)
      mdr := cellAt s 2
      out := s.out ++ [.trace s.pc (cellAt s 0) (cellAt s 1) (cellAt s 2) s.x] }) ∧
    (s.run = .running → 254 ≤ s.pc.toNat → trace s = step s ∧ ∃ t, trace s = .next t ∧ t.out = s.out) ∧
    (s.run ≠ .running → trace s = .refused .traceAfterRun)

/-- 70_reset_and_hazards.md R146 with 45_host_interface.md R110: a trace changes nothing any later step does. The run
after it, of any length, differs from the run without it only in the shadow registers and the trace events. -/
def Obligations.TraceDoesNotDisturbTheRun : Prop :=
  ∀ (s t : State), trace s = .next t → t.run = .running →
    ∀ n, withoutTraces (runFor n t) = withoutTraces (runFor n s)

/-! ### Reset, loading and launching -/

/-- 10_state.md R25: the values the spec gives for reset, for every launch; the registers, MAR and MDR are the launch's
(the spec's decisions D2, D3), the width is the launch's (a field of State by the model's choice, log 1), and State.reset is
the launch with the model's defaults (logs 2, 3), at width 8 (the spec's decision D1). -/
def Obligations.ResetState : Prop :=
  (∀ (p : Launch) (a : Nat), readCell (State.construct p).mem a = 0) ∧
  (∀ p : Launch, (State.construct p).pc = 0 ∧ (State.construct p).run = .running ∧
    (State.construct p).cause = .none ∧ (State.construct p).fault = none ∧ (State.construct p).out = [] ∧
    (State.construct p).x = p.regInit ∧ (State.construct p).mar = p.marInit ∧ (State.construct p).mdr = p.mdrInit ∧
    (State.construct p).regw = p.regw) ∧
  (∃ p, State.reset = State.construct p) ∧ State.reset.regw = .bits 8

/-- 45_host_interface.md R105 (that loading leaves MAR and MDR alone is the model's reading of D3, log 11): the image
lies at address 0, in order, without gaps, the other cells are untouched, and nothing but memory changes; loading happens
before the run (log 23). -/
def Obligations.LoadPlacesTheImage : Prop :=
  ∀ (image : List Byte) (s : State), BeforeRun s → s.mem.wf → image.length ≤ 256 →
    ∃ t, load image s = .next t ∧ t = { s with mem := t.mem } ∧
      (∀ (k : Nat) (h : k < image.length), readCell t.mem k = image[k]) ∧
      ∀ k, image.length ≤ k → readCell t.mem k = readCell s.mem k

/-- 45_host_interface.md R105, R106 (the spec's decisions D3, D11): loading through the arbiter differs from direct
loading only in MAR and MDR, which then hold the last address and byte; a 257th byte would raise OutOfRange(256), and both
refuse the image. -/
def Obligations.LoaderDesignsAgree : Prop :=
  (∀ (image : List Byte) (s : State), BeforeRun s → image.length ≤ 256 →
    ∃ t u, load image s = .next t ∧ loadThroughArbiter image s = .next u ∧ u = { t with mar := u.mar, mdr := u.mdr } ∧
      (image = [] → u = s) ∧ ∀ h : image ≠ [], u.mar.toNat + 1 = image.length ∧ u.mdr = image.getLast h) ∧
  (∀ (image : List Byte) (s : State), image.length ≤ 256 →
    ∃ t, writeImage 0 image s = .done () t ∧ t = { placeImage image s with mar := t.mar, mdr := t.mdr }) ∧
  ∀ (image : List Byte) (s : State), 256 < image.length →
    (∃ t, writeImage 0 image s = .raised (.outOfRange 256) t) ∧
    (BeforeRun s → load image s = .refused (.imageTooLong image.length) ∧
      loadThroughArbiter image s = .refused (.imageTooLong image.length))

/-- 45_host_interface.md R106, R107 and 00_scope.md R5 (the spec's decision D11): which launches have a run, and what the
refused ones are told. -/
def Obligations.LaunchAcceptsExactlyTheLegalImages : Prop :=
  ∀ p : Launch, p.regw.legal = true → (∀ (r : Nat) (h : r < 8), isRegval p.regw p.regInit[r] = true) →
    (p.image.length ≤ 256 → (∀ v ∈ p.image, v < 256) → ∃ s, launch p = .next s) ∧
    (256 < p.image.length → launch p = .refused (.imageTooLong p.image.length)) ∧
    (p.image.length ≤ 256 → (∃ v ∈ p.image, 256 ≤ v) → launch p = .refused .imageValueNotByte)

/-- 70_reset_and_hazards.md R141, 10_state.md R25: the state a launch answers: running at pc 0, the image in memory and
zeros above it, the preset registers, and the invariant. -/
def Obligations.LaunchedStateIsReadyToRun : Prop :=
  ∀ (p : Launch) (s : State), launch p = .next s →
    s.run = .running ∧ s.pc = 0 ∧ s.x = p.regInit ∧ s.out = [] ∧
    (∀ k, k < 256 → (readCell s.mem k).toNat = p.image.getD k 0) ∧ StateInv s

/-- 44_hlt_and_invalid.md R102 (derived there): 0x00 is no no-operation. An empty program ends at its first step, for
every launch. -/
def Obligations.EmptyProgramEndsAtItsFirstStep : Prop :=
  ∀ p : Launch, ∃ t, step (State.construct p) = .next t ∧ t.run = .halted ∧ t.cause = .invalidInstruction ∧
    t.pc = 0 ∧ t.mar = 2 ∧ t.mdr = 0 ∧ t.out = [.invalidInstructionReport 0] ∧ t.x = p.regInit

/-- 45_host_interface.md R107, 10_state.md R12, 60_exceptions.md R122 (the spec's decision D2): before the run a preset
register holds the value and nothing else changes, and a bad index aborts. That a value which is no `regval` is refused, and
before the index is examined, is the model's choice of log 12. -/
def Obligations.PreloadSetsOneRegister : Prop :=
  ∀ (i : Byte) (v : Nat) (s : State), BeforeRun s →
    (isRegval s.regw v = true → i.toNat < 8 → ∃ t, preload i v s = .next t ∧ regGet i t = .done v t ∧
      t = { s with x := t.x } ∧ ∀ (r : Nat) (h : r < 8), r ≠ i.toNat → t.x[r] = s.x[r]) ∧
    (isRegval s.regw v = true → 8 ≤ i.toNat →
      preload i v s = .next { s with run := .aborted, fault := some (.invalidRegister i) }) ∧
    (isRegval s.regw v = false → preload i v s = .refused .registerValueNotRegval)

/-- 20_memory.md R31 (the spec's decision D17): a value that is no byte presented to the write port is refused; before the
run a byte is written as `MemWrite` writes it, and an address outside [0,256) aborts (log 23). -/
def Obligations.OnlyBytesCanBeWritten : Prop :=
  ∀ (a v : Nat) (s : State),
    (256 ≤ v → presentWrite a v s = .refused (.writeValueNotByte v)) ∧
    (v < 256 → BeforeRun s → a < 256 →
      ∃ t, presentWrite a v s = .next t ∧ memWrite a (BitVec.ofNat 8 v) s = .done (BitVec.ofNat 8 v) t) ∧
    (v < 256 → BeforeRun s → 256 ≤ a →
      presentWrite a v s = .next { s with run := .aborted, fault := some (.outOfRange a) })

/-- 45_host_interface.md R107, R113 and 70_reset_and_hazards.md R141 (the refusal and the test that no step has been made
are the model's, log 23): once a step has been made, whatever its outcome, and in every terminal state, the host can write
neither memory nor a register. -/
def Obligations.HostWritesOnlyBeforeTheRun : Prop :=
  (∀ s t : State, step s = .next t → ¬ BeforeRun t) ∧
  (∀ s : State, s.run = .halted ∨ s.run = .aborted → ¬ BeforeRun s) ∧
  ∀ s : State, ¬ BeforeRun s →
    (∀ (i : Byte) (v : Nat), preload i v s = .refused .runHasBegun) ∧
    (∀ image, load image s = .refused .runHasBegun ∧ loadThroughArbiter image s = .refused .runHasBegun) ∧
    ∀ a v, v < 256 → presentWrite a v s = .refused .runHasBegun

/-- 70_reset_and_hazards.md R141: register preload and load may come in either order, because neither reads what the other
writes. -/
def Obligations.PreloadAndLoadMayComeInEitherOrder : Prop :=
  ∀ (i : Byte) (v : Nat) (image : List Byte) (s : State), BeforeRun s → i.toNat < 8 → isRegval s.regw v = true →
    image.length ≤ 256 →
    ∃ t u w, preload i v s = .next t ∧ load image t = .next w ∧ load image s = .next u ∧ preload i v u = .next w

/-! ### What the host sees at the end -/

/-- 42_prn.md R89 (the spec's decision D10 leaves the characters to the host): the digits of a printed value are decimal
digits that denote it, with no leading zero, and the single digit 0 for 0; at width 8 there are 1 to 3. -/
def Obligations.PrintedDigitsDenoteTheValue : Prop :=
  ∀ v : Nat,
    (∀ d ∈ decimalDigits v, d < 10) ∧
    (decimalDigits v).foldl (fun n d => 10 * n + d) 0 = v ∧
    (v = 0 → decimalDigits v = [0]) ∧
    (v ≠ 0 → (decimalDigits v).head? ≠ some 0) ∧
    (v < 256 → 1 ≤ (decimalDigits v).length ∧ (decimalDigits v).length ≤ 3)

/-- 45_host_interface.md R109 (the spec's decisions D9, D23): after a run that HLT ended the host owes an abnormal end
with a status that is not zero, whatever `HLT_EXIT_STATUS` is; after an invalid opcode a normal end; after an abort an
abnormal one; and nothing while the engine runs. -/
def Obligations.HostOwesTheEndTheCauseAsksFor : Prop :=
  ∀ s : State, StateInv s →
    (s.cause = .hlt → ∃ n, n ≠ 0 ∧ hostEnd s = some (.abnormally n)) ∧
    (s.cause = .invalidInstruction → hostEnd s = some .normally) ∧
    (s.run = .aborted → ∃ n, hostEnd s = some (.abnormally n)) ∧
    (s.run = .running → hostEnd s = none)

/-! ### Whole-machine rules -/

/-- The invariant holds at reset (10_state.md R25; the named register values are the model's, logs 2 and 3). -/
def Obligations.ResetSatisfiesTheInvariant : Prop := StateInv State.reset

/-- The invariant of Safety.lean (10_state.md R14, R11, R20, R21; 60_exceptions.md R121, R122, R124) is kept by every
step, from every state that has it. -/
def Obligations.StepKeepsTheInvariant : Prop :=
  ∀ s t : State, StateInv s → step s = .next t → StateInv t

/-- The invariant is kept by every trace (45_host_interface.md R110), and before the run by every preload, every load in
either design and every presented write but one at an address above 256, whose record no run can have (R121). -/
def Obligations.HostOperationsKeepTheInvariant : Prop :=
  (∀ s t : State, StateInv s → trace s = .next t → StateInv t) ∧
  (∀ (i : Byte) (v : Nat) (s t : State), StateInv s → preload i v s = .next t → StateInv t) ∧
  (∀ (image : List Byte) (s t : State), StateInv s →
    load image s = .next t ∨ loadThroughArbiter image s = .next t → StateInv t) ∧
  ∀ (a v : Nat) (s t : State), StateInv s → a ≤ 256 → presentWrite a v s = .next t → StateInv t

/-- 40_step_fetch_decode_dispatch.md R78 and 70_reset_and_hazards.md R149 (derived there from the four opcodes): every
run, from any state whatever, reaches a terminal state within 128 steps and stays in it. -/
def Obligations.EveryRunEndsWithin128Steps : Prop :=
  ∀ s : State, (runFor 128 s).run ≠ .running ∧ ∀ n, 128 ≤ n → runFor n s = runFor 128 s

/-- 60_exceptions.md R128 (Aborted refutes any claim that a run ends well, the spec's decision D5), 10_state.md R19, R20:
a run within the invariant ends in exactly one of three ways, and the record says which. -/
def Obligations.RunsEndInOneOfThreeWays : Prop :=
  ∀ s : State, StateInv s →
    (runFor 128 s).run = .halted ∧ (runFor 128 s).cause = .hlt ∧ Event.haltNotice ∈ (runFor 128 s).out ∧
      (runFor 128 s).fault = none ∨
    (runFor 128 s).run = .halted ∧ (runFor 128 s).cause = .invalidInstruction ∧
      Event.haltNotice ∉ (runFor 128 s).out ∧ (runFor 128 s).fault = none ∨
    (runFor 128 s).run = .aborted ∧ (runFor 128 s).cause = .none ∧ Event.haltNotice ∉ (runFor 128 s).out ∧
      ∃ e, (runFor 128 s).fault = some e ∧ (e = .outOfRange 256 ∨ ∃ i : Byte, 8 ≤ i.toNat ∧ e = .invalidRegister i)
end

