-- ==== Sys2Proof/Laws/Decode.lean ====
section
/-! SUPPORT. The lookup and the decoder, one equation each. -/

namespace Sys2Proof

/-- The lookup as a chain of comparisons (R54, R55). -/
theorem lookupOpcode_eq (op : Byte) :
    lookupOpcode op =
      if op = 0x82 then some .LDI else if op = 0x47 then some .PRN
      else if op = 0xA2 then some .MUL else if op = 0x01 then some .HLT else none := by
  revert op; decide

/-- The lookup finds nothing for every byte but four (R57). -/
theorem lookupOpcode_eq_none_iff (op : Byte) :
    lookupOpcode op = none ↔ op ≠ 0x01 ∧ op ≠ 0x47 ∧ op ≠ 0x82 ∧ op ≠ 0xA2 := by
  revert op; decide

/-- Decoding as a chain of comparisons (R55, R57). -/
theorem decode_eq (op a b : Byte) :
    decode op a b =
      if op = 0x82 then .instr (.ldi a b) else if op = 0x47 then .instr (.prn a)
      else if op = 0xA2 then .instr (.mul a b) else if op = 0x01 then .instr .hlt else .invalidOpcode op := by
  unfold decode
  rw [lookupOpcode_eq]
  repeat' split
  all_goals simp_all

/-- Decoding refuses exactly where the lookup finds nothing (R57). -/
theorem decode_invalid_iff (op a b o : Byte) :
    decode op a b = .invalidOpcode o ↔ lookupOpcode op = none ∧ o = op := by
  unfold decode
  split <;> rename_i h <;> simp [h, eq_comm]

theorem encode_length (i : Instr) : (encode i).length = instrLength i := by cases i <;> rfl

end Sys2Proof
end

