-- ==== Sys2Proof/Laws/State.lean ====
section
/-! SUPPORT. One lemma per field per named update of the state, so that no later proof unfolds an update. -/

namespace Sys2Proof.Machine

@[simp] theorem emit_mem (e : Event) (s : State) : (emit e s).mem = s.mem := rfl
@[simp] theorem emit_x (e : Event) (s : State) : (emit e s).x = s.x := rfl
@[simp] theorem emit_pc (e : Event) (s : State) : (emit e s).pc = s.pc := rfl
@[simp] theorem emit_mar (e : Event) (s : State) : (emit e s).mar = s.mar := rfl
@[simp] theorem emit_mdr (e : Event) (s : State) : (emit e s).mdr = s.mdr := rfl
@[simp] theorem emit_run (e : Event) (s : State) : (emit e s).run = s.run := rfl
@[simp] theorem emit_cause (e : Event) (s : State) : (emit e s).cause = s.cause := rfl
@[simp] theorem emit_fault (e : Event) (s : State) : (emit e s).fault = s.fault := rfl
@[simp] theorem emit_out (e : Event) (s : State) : (emit e s).out = s.out ++ [e] := rfl
@[simp] theorem emit_regw (e : Event) (s : State) : (emit e s).regw = s.regw := rfl

@[simp] theorem abortRun_mem (e : Raised) (s : State) : (abortRun e s).mem = s.mem := rfl
@[simp] theorem abortRun_x (e : Raised) (s : State) : (abortRun e s).x = s.x := rfl
@[simp] theorem abortRun_pc (e : Raised) (s : State) : (abortRun e s).pc = s.pc := rfl
@[simp] theorem abortRun_mar (e : Raised) (s : State) : (abortRun e s).mar = s.mar := rfl
@[simp] theorem abortRun_mdr (e : Raised) (s : State) : (abortRun e s).mdr = s.mdr := rfl
@[simp] theorem abortRun_run (e : Raised) (s : State) : (abortRun e s).run = .aborted := rfl
@[simp] theorem abortRun_cause (e : Raised) (s : State) : (abortRun e s).cause = s.cause := rfl
@[simp] theorem abortRun_fault (e : Raised) (s : State) : (abortRun e s).fault = some e := rfl
@[simp] theorem abortRun_out (e : Raised) (s : State) : (abortRun e s).out = s.out := rfl
@[simp] theorem abortRun_regw (e : Raised) (s : State) : (abortRun e s).regw = s.regw := rfl

@[simp] theorem halt_mem (c : Cause) (e : Event) (s : State) : (halt c e s).mem = s.mem := rfl
@[simp] theorem halt_x (c : Cause) (e : Event) (s : State) : (halt c e s).x = s.x := rfl
@[simp] theorem halt_pc (c : Cause) (e : Event) (s : State) : (halt c e s).pc = s.pc := rfl
@[simp] theorem halt_mar (c : Cause) (e : Event) (s : State) : (halt c e s).mar = s.mar := rfl
@[simp] theorem halt_mdr (c : Cause) (e : Event) (s : State) : (halt c e s).mdr = s.mdr := rfl
@[simp] theorem halt_run (c : Cause) (e : Event) (s : State) : (halt c e s).run = .halted := rfl
@[simp] theorem halt_cause (c : Cause) (e : Event) (s : State) : (halt c e s).cause = c := rfl
@[simp] theorem halt_fault (c : Cause) (e : Event) (s : State) : (halt c e s).fault = s.fault := rfl
@[simp] theorem halt_out (c : Cause) (e : Event) (s : State) : (halt c e s).out = s.out ++ [e] := rfl
@[simp] theorem halt_regw (c : Cause) (e : Event) (s : State) : (halt c e s).regw = s.regw := rfl

@[simp] theorem placeImage_mem (image : List Byte) (s : State) : (placeImage image s).mem = placeBytes 0 image s.mem := rfl
@[simp] theorem placeImage_x (image : List Byte) (s : State) : (placeImage image s).x = s.x := rfl
@[simp] theorem placeImage_pc (image : List Byte) (s : State) : (placeImage image s).pc = s.pc := rfl
@[simp] theorem placeImage_mar (image : List Byte) (s : State) : (placeImage image s).mar = s.mar := rfl
@[simp] theorem placeImage_mdr (image : List Byte) (s : State) : (placeImage image s).mdr = s.mdr := rfl
@[simp] theorem placeImage_run (image : List Byte) (s : State) : (placeImage image s).run = s.run := rfl
@[simp] theorem placeImage_cause (image : List Byte) (s : State) : (placeImage image s).cause = s.cause := rfl
@[simp] theorem placeImage_fault (image : List Byte) (s : State) : (placeImage image s).fault = s.fault := rfl
@[simp] theorem placeImage_out (image : List Byte) (s : State) : (placeImage image s).out = s.out := rfl
@[simp] theorem placeImage_regw (image : List Byte) (s : State) : (placeImage image s).regw = s.regw := rfl

@[simp] theorem afterFetch_mem (s : State) : (afterFetch s).mem = s.mem := rfl
@[simp] theorem afterFetch_x (s : State) : (afterFetch s).x = s.x := rfl
@[simp] theorem afterFetch_pc (s : State) : (afterFetch s).pc = s.pc := rfl
@[simp] theorem afterFetch_mar (s : State) : (afterFetch s).mar = BitVec.ofNat 8 (s.pc.toNat + 2) := rfl
@[simp] theorem afterFetch_mdr (s : State) : (afterFetch s).mdr = cellAt s 2 := rfl
@[simp] theorem afterFetch_run (s : State) : (afterFetch s).run = s.run := rfl
@[simp] theorem afterFetch_cause (s : State) : (afterFetch s).cause = s.cause := rfl
@[simp] theorem afterFetch_fault (s : State) : (afterFetch s).fault = s.fault := rfl
@[simp] theorem afterFetch_out (s : State) : (afterFetch s).out = s.out := rfl
@[simp] theorem afterFetch_regw (s : State) : (afterFetch s).regw = s.regw := rfl

@[simp] theorem advancePc_mem (adv : PcWord) (s : State) : (advancePc adv s).mem = s.mem := by
  unfold advancePc; split <;> rfl
@[simp] theorem advancePc_x (adv : PcWord) (s : State) : (advancePc adv s).x = s.x := by
  unfold advancePc; split <;> rfl
@[simp] theorem advancePc_mar (adv : PcWord) (s : State) : (advancePc adv s).mar = s.mar := by
  unfold advancePc; split <;> rfl
@[simp] theorem advancePc_mdr (adv : PcWord) (s : State) : (advancePc adv s).mdr = s.mdr := by
  unfold advancePc; split <;> rfl
@[simp] theorem advancePc_run (adv : PcWord) (s : State) : (advancePc adv s).run = s.run := by
  unfold advancePc; split <;> rfl
@[simp] theorem advancePc_cause (adv : PcWord) (s : State) : (advancePc adv s).cause = s.cause := by
  unfold advancePc; split <;> rfl
@[simp] theorem advancePc_fault (adv : PcWord) (s : State) : (advancePc adv s).fault = s.fault := by
  unfold advancePc; split <;> rfl
@[simp] theorem advancePc_out (adv : PcWord) (s : State) : (advancePc adv s).out = s.out := by
  unfold advancePc; split <;> rfl
@[simp] theorem advancePc_regw (adv : PcWord) (s : State) : (advancePc adv s).regw = s.regw := by
  unfold advancePc; split <;> rfl

theorem advancePc_of_running {s : State} (h : s.run = .running) (adv : PcWord) :
    advancePc adv s = { s with pc := s.pc + adv } := by simp [advancePc, h]

theorem advancePc_of_ended {s : State} (h : s.run ≠ .running) (adv : PcWord) : advancePc adv s = s := by
  simp [advancePc, h]

/-- HLT and the invalid opcode end the run, so no advance is made (R77). -/
@[simp] theorem advancePc_halt (adv : PcWord) (c : Cause) (e : Event) (s : State) :
    advancePc adv (halt c e s) = halt c e s := advancePc_of_ended (by simp) adv

@[simp] theorem construct_mem (p : Launch) : (State.construct p).mem = [] := rfl
@[simp] theorem construct_x (p : Launch) : (State.construct p).x = p.regInit := rfl
@[simp] theorem construct_pc (p : Launch) : (State.construct p).pc = 0 := rfl
@[simp] theorem construct_mar (p : Launch) : (State.construct p).mar = p.marInit := rfl
@[simp] theorem construct_mdr (p : Launch) : (State.construct p).mdr = p.mdrInit := rfl
@[simp] theorem construct_run (p : Launch) : (State.construct p).run = .running := rfl
@[simp] theorem construct_cause (p : Launch) : (State.construct p).cause = .none := rfl
@[simp] theorem construct_fault (p : Launch) : (State.construct p).fault = none := rfl
@[simp] theorem construct_out (p : Launch) : (State.construct p).out = [] := rfl
@[simp] theorem construct_regw (p : Launch) : (State.construct p).regw = p.regw := rfl

end Sys2Proof.Machine
end

