-- ==== Sys2Proof/Laws/Memory.lean ====
section
/-! SUPPORT. Memory cells, the arbiter and the three reads of a step: what each answers, and that every memory operation
keeps the canonical form. -/

namespace Sys2Proof.Machine

@[simp] theorem readCell_nil (a : Nat) : readCell [] a = 0 := rfl

theorem readCell_cons (b : Nat) (w : Byte) (m : Memory) (a : Nat) :
    readCell ((b, w) :: m) a = if a = b then w else readCell m a := rfl

theorem wf_nil : Memory.wf [] = true := rfl

/-- The canonical form, cell by cell. -/
theorem wf_cons {b : Nat} {w : Byte} {m : Memory} :
    Memory.wf ((b, w) :: m) = true ↔ (∀ c ∈ m, b < c.1) ∧ b < 256 ∧ w ≠ 0 ∧ Memory.wf m = true := by
  simp only [Memory.wf, Bool.and_eq_true, decide_eq_true_eq, List.all_cons, List.pairwise_cons]
  tauto

/-- A cell below every listed one holds 0. -/
theorem readCell_of_below {m : Memory} {a : Nat} (h : ∀ c ∈ m, a < c.1) : readCell m a = 0 := by
  induction m with
  | nil => rfl
  | cons c m ih =>
    obtain ⟨b, w⟩ := c
    simp only [List.forall_mem_cons] at h
    rw [readCell_cons, if_neg (by omega), ih h.2]

/-- A write leaves every other cell alone (R31). -/
theorem readCell_writeCell_other (m : Memory) {a c : Nat} (v : Byte) (h : c ≠ a) :
    readCell (writeCell m a v) c = readCell m c := by
  induction m with
  | nil => unfold writeCell; split <;> simp [readCell, h]
  | cons cell m ih =>
    obtain ⟨b, w⟩ := cell
    unfold writeCell
    split
    · split <;> simp [readCell, h]
    · split
      · subst b; split <;> simp [readCell, h]
      · simp [readCell, ih]

/-- A read of the cell just written gives the byte written. -/
theorem readCell_writeCell_same {m : Memory} (hm : m.wf) (a : Nat) (v : Byte) :
    readCell (writeCell m a v) a = v := by
  induction m with
  | nil => unfold writeCell; split <;> simp_all [readCell]
  | cons cell m ih =>
    obtain ⟨b, w⟩ := cell
    obtain ⟨hb, -, -, hm'⟩ := wf_cons.mp hm
    unfold writeCell
    split
    · rename_i hab
      split
      · subst v
        exact readCell_of_below (List.forall_mem_cons.mpr ⟨hab, fun c hc => Nat.lt_trans hab (hb c hc)⟩)
      · simp [readCell]
    · split
      · subst b
        split
        · subst v; exact readCell_of_below hb
        · simp [readCell]
      · simp [readCell, ih hm', *]

theorem mem_writeCell {m : Memory} {a : Nat} {v : Byte} {c : Host.Cell} (h : c ∈ writeCell m a v) :
    (c = (a, v) ∧ v ≠ 0) ∨ c ∈ m := by
  induction m with
  | nil => unfold writeCell at h; split at h <;> simp_all
  | cons cell m ih =>
    obtain ⟨b, w⟩ := cell
    unfold writeCell at h
    split at h
    · split at h <;> simp_all
    · split at h
      · split at h <;> simp_all
        tauto
      · rcases List.mem_cons.mp h with h | h
        · simp [h]
        · rcases ih h with h | h
          · exact .inl h
          · exact .inr (List.mem_cons_of_mem _ h)

/-- A write keeps the canonical form. -/
theorem writeCell_wf {m : Memory} (hm : m.wf) {a : Nat} (ha : a < 256) (v : Byte) : (writeCell m a v).wf := by
  induction m with
  | nil => unfold writeCell; split <;> simp_all [wf_cons, wf_nil]
  | cons cell m ih =>
    obtain ⟨b, w⟩ := cell
    have hm0 := hm
    obtain ⟨hb, hb256, hw, hm'⟩ := wf_cons.mp hm
    unfold writeCell
    split
    · rename_i hab
      split
      · exact hm0
      · exact wf_cons.mpr ⟨List.forall_mem_cons.mpr ⟨hab, fun c hc => Nat.lt_trans hab (hb c hc)⟩, ha, ‹_›, hm0⟩
    · split
      · subst b
        split
        · exact hm'
        · exact wf_cons.mpr ⟨hb, ha, ‹_›, hm'⟩
      · refine wf_cons.mpr ⟨fun c hc => ?_, hb256, hw, ih hm'⟩
        rcases mem_writeCell hc with ⟨rfl, -⟩ | hc
        · simp only; omega
        · exact hb c hc

/-- Placing bytes keeps the canonical form. -/
theorem placeBytes_wf (vs : List Byte) : ∀ (k : Nat) {m : Memory}, m.wf → (placeBytes k vs m).wf := by
  induction vs with
  | nil => intro k m hm; exact hm
  | cons v vs ih =>
    intro k m hm
    unfold placeBytes
    apply ih
    split
    · exact writeCell_wf hm ‹_› v
    · exact hm

/-- Bytes placed from `k` on leave every cell below `k` alone. -/
theorem readCell_placeBytes_below (vs : List Byte) :
    ∀ {k : Nat} (m : Memory) {c : Nat}, c < k → readCell (placeBytes k vs m) c = readCell m c := by
  induction vs with
  | nil => intros; rfl
  | cons v vs ih =>
    intro k m c hc
    unfold placeBytes
    rw [ih _ (by omega)]
    split
    · exact readCell_writeCell_other _ _ (by omega)
    · rfl

theorem reset_mem_wf : State.reset.mem.wf := wf_nil

/-- What `memRead` answers (R32, R35). -/
theorem memRead_of_lt {a : Nat} (h : a < 256) (s : State) :
    memRead a s = .done (readCell s.mem a) { s with mar := BitVec.ofNat 8 a, mdr := readCell s.mem a } := if_pos h

theorem memRead_of_ge {a : Nat} (h : 256 ≤ a) (s : State) : memRead a s = .raised (.outOfRange a) s :=
  if_neg (by simp only [Config.memSize]; omega)

/-- What `memWrite` answers (R33, R35). -/
theorem memWrite_of_lt {a : Nat} (h : a < 256) (v : Byte) (s : State) :
    memWrite a v s = .done v { s with mem := writeCell s.mem a v, mar := BitVec.ofNat 8 a, mdr := v } := if_pos h

theorem memWrite_of_ge {a : Nat} (h : 256 ≤ a) (v : Byte) (s : State) :
    memWrite a v s = .raised (.outOfRange a) s := if_neg (by simp only [Config.memSize]; omega)

@[simp] theorem andThen_done {α β : Type} (v : α) (s : State) (f : α → State → Attempt β) :
    andThen (.done v s) f = f v s := rfl

@[simp] theorem andThen_raised {α β : Type} (e : Raised) (s : State) (f : α → State → Attempt β) :
    andThen (.raised e s) f = .raised e s := rfl

/-- The three reads where all of them are in range (R73). -/
theorem readThree_of_le {s : State} (h : s.pc.toNat ≤ 253) :
    readThree s = .done (cellAt s 0, cellAt s 1, cellAt s 2) (afterFetch s) := by
  simp only [readThree, memRead_of_lt (show s.pc.toNat < 256 by omega),
    memRead_of_lt (show s.pc.toNat + 1 < 256 by omega), memRead_of_lt (show s.pc.toNat + 2 < 256 by omega),
    andThen_done]
  rfl

/-- The third read fails at 254 (R73). -/
theorem readThree_at_254 {s : State} (h : s.pc.toNat = 254) :
    readThree s = .raised (.outOfRange 256) { s with mar := 255, mdr := readCell s.mem 255 } := by
  simp only [readThree, h, Nat.reduceAdd, memRead_of_lt (show 254 < 256 by omega),
    memRead_of_lt (show 255 < 256 by omega), memRead_of_ge (show 256 ≤ 256 by omega), andThen_done, andThen_raised]
  rfl

/-- The second read fails at 255 (R73). -/
theorem readThree_at_255 {s : State} (h : s.pc.toNat = 255) :
    readThree s = .raised (.outOfRange 256) { s with mar := 255, mdr := readCell s.mem 255 } := by
  simp only [readThree, h, Nat.reduceAdd,
    memRead_of_lt (show 255 < 256 by omega), memRead_of_ge (show 256 ≤ 256 by omega), andThen_done, andThen_raised]
  rfl

/-- The first read fails beyond the last cell, and changes nothing (R71, R35). -/
theorem readThree_of_ge {s : State} (h : 256 ≤ s.pc.toNat) :
    readThree s = .raised (.outOfRange s.pc.toNat) s := by
  simp only [readThree, memRead_of_ge h, andThen_raised]

/-- The three reads where one fails: only `mar` and `mdr` can have changed (R73, R79). -/
theorem readThree_of_gt {s : State} (h : 253 < s.pc.toNat) :
    ∃ a m d, 256 ≤ a ∧ (s.pc.toNat ≤ 256 → a = 256) ∧
      readThree s = .raised (.outOfRange a) { s with mar := m, mdr := d } := by
  rcases (by omega : s.pc.toNat = 254 ∨ s.pc.toNat = 255 ∨ 256 ≤ s.pc.toNat) with h | h | h
  · exact ⟨256, _, _, le_rfl, fun _ => rfl, readThree_at_254 h⟩
  · exact ⟨256, _, _, le_rfl, fun _ => rfl, readThree_at_255 h⟩
  · exact ⟨s.pc.toNat, s.mar, s.mdr, h, fun _ => by omega, readThree_of_ge h⟩

end Sys2Proof.Machine
end

