-- ==== Sys2Proof/Laws/Operations.lean ====
section
/-! SUPPORT. The register multiplexer, the reduction of results, the ALU and the end of a step: everything each can
answer. -/

namespace Sys2Proof.Machine

/-- What the multiplexer's `get` answers (R12). -/
theorem regGet_of_lt {i : Byte} (h : i.toNat < 8) (s : State) : regGet i s = .done (s.x[i.toNat]) s := dif_pos h

theorem regGet_of_ge {i : Byte} (h : 8 ≤ i.toNat) (s : State) : regGet i s = .raised (.invalidRegister i) s :=
  dif_neg (by simp only [Config.regCount]; omega)

/-- What the multiplexer's `set` answers (R12). -/
theorem regSet_of_lt {i : Byte} (h : i.toNat < 8) (v : Nat) (s : State) :
    regSet i v s = .done () { s with x := s.x.set i.toNat v h } := dif_pos h

theorem regSet_of_ge {i : Byte} (h : 8 ≤ i.toNat) (v : Nat) (s : State) :
    regSet i v s = .raised (.invalidRegister i) s := dif_neg (by simp only [Config.regCount]; omega)

/-- A reduced result is a `regval` (R7). -/
theorem normReg_isRegval (w : RegWidth) (v : Nat) : isRegval w (normReg w v) = true := by
  cases w with
  | bits n => exact decide_eq_true (Nat.mod_lt v (Nat.two_pow_pos n))
  | unbounded => rfl

/-- `norm` changes no `regval` (R7). -/
theorem normReg_of_isRegval {w : RegWidth} {v : Nat} (h : isRegval w v = true) : normReg w v = v := by
  cases w with
  | bits n => exact Nat.mod_eq_of_lt (by simpa [isRegval] using h)
  | unbounded => rfl

/-- Every byte is a `regval` at a legal width (R53). -/
theorem isRegval_of_byte {w : RegWidth} (h : w.legal = true) (b : Byte) : isRegval w b.toNat = true := by
  cases w with
  | bits n =>
    simp only [RegWidth.legal, decide_eq_true_eq] at h
    simp only [isRegval, decide_eq_true_eq]
    exact Nat.lt_of_lt_of_le b.isLt (Nat.pow_le_pow_right (by omega) h)
  | unbounded => rfl

/-- What ADD and MUL share, with both registers there (R92). -/
theorem aluBinary_of_lt (f : Nat → Nat → Nat) {a b : Byte} (ha : a.toNat < 8) (hb : b.toNat < 8) (s : State) :
    aluBinary f a b s =
      .done () { s with x := s.x.set a.toNat (normReg s.regw (f (s.x[a.toNat]) (s.x[b.toNat]))) ha } := by
  simp only [aluBinary, regGet_of_lt ha, regGet_of_lt hb, regSet_of_lt ha, andThen_done]

/-- The first operand is examined first (D13). -/
theorem aluBinary_of_ge_left (f : Nat → Nat → Nat) {a : Byte} (b : Byte) (ha : 8 ≤ a.toNat) (s : State) :
    aluBinary f a b s = .raised (.invalidRegister a) s := by
  simp only [aluBinary, regGet_of_ge ha, andThen_raised]

theorem aluBinary_of_ge_right (f : Nat → Nat → Nat) {a b : Byte} (ha : a.toNat < 8) (hb : 8 ≤ b.toNat) (s : State) :
    aluBinary f a b s = .raised (.invalidRegister b) s := by
  simp only [aluBinary, regGet_of_lt ha, regGet_of_ge hb, andThen_done, andThen_raised]

@[simp] theorem finish_done (adv : PcWord) (s : State) : finish (.done adv s) = .next (advancePc adv s) := rfl

@[simp] theorem finish_raised (e : Raised) (s : State) : finish (.raised e s) = .next (abortRun e s) := rfl

end Sys2Proof.Machine
end

