-- ==== Sys2Proof/Laws/Host.lean ====
section
/-! SUPPORT. What the host's accesses share: the guard that keeps them before the run, and the end of an access. -/

namespace Sys2Proof.Machine

theorem beforeRunOnly_of_before {s : State} (h : BeforeRun s) (o : Host.Outcome State Fault Refusal) :
    beforeRunOnly s o = o := if_pos h

theorem beforeRunOnly_of_begun {s : State} (h : ¬ BeforeRun s) (o : Host.Outcome State Fault Refusal) :
    beforeRunOnly s o = .refused .runHasBegun := if_neg h

/-- A guarded access that answers a next state was made before the run. -/
theorem beforeRunOnly_next {s t : State} {o : Host.Outcome State Fault Refusal}
    (h : beforeRunOnly s o = .next t) : BeforeRun s ∧ o = .next t := by
  unfold beforeRunOnly at h
  split at h
  · exact ⟨‹_›, h⟩
  · cases h

@[simp] theorem settle_done {α : Type} (v : α) (s : State) : settle (.done v s) = .next s := rfl

@[simp] theorem settle_raised {α : Type} (e : Raised) (s : State) :
    settle (.raised e s : Attempt α) = .next (abortRun e s) := rfl

theorem construct_beforeRun (p : Launch) : BeforeRun (State.construct p) := ⟨rfl, rfl⟩

/-- A load that answers a next state: when, and which. -/
theorem load_next {image : List Byte} {s t : State} (h : load image s = .next t) :
    BeforeRun s ∧ image.length ≤ 256 ∧ t = placeImage image s := by
  obtain ⟨hb, h⟩ := beforeRunOnly_next h
  split at h
  · cases h
  · cases h
    exact ⟨hb, Nat.le_of_not_lt ‹_›, rfl⟩

/-- A load before the run of an image that fits. -/
theorem load_of_le {image : List Byte} {s : State} (hb : BeforeRun s) (h : image.length ≤ 256) :
    load image s = .next (placeImage image s) := by
  rw [load, beforeRunOnly_of_before hb, if_neg (Nat.not_lt.mpr h)]

/-- What a preload that answers a next state did. -/
theorem preload_next {i : Byte} {v : Nat} {s t : State} (h : preload i v s = .next t) :
    BeforeRun s ∧ isRegval s.regw v = true ∧
      ((∃ hi : i.toNat < 8, t = { s with x := s.x.set i.toNat v hi }) ∨
        8 ≤ i.toNat ∧ t = abortRun (.invalidRegister i) s) := by
  obtain ⟨hb, h⟩ := beforeRunOnly_next h
  split at h
  · refine ⟨hb, ‹_›, ?_⟩
    rcases Nat.lt_or_ge i.toNat 8 with hi | hi
    · rw [regSet_of_lt hi, settle_done] at h
      cases h
      exact .inl ⟨hi, rfl⟩
    · rw [regSet_of_ge hi, settle_raised] at h
      cases h
      exact .inr ⟨hi, rfl⟩
  · cases h

/-- What a presented write that answers a next state did. -/
theorem presentWrite_next {a v : Nat} {s t : State} (h : presentWrite a v s = .next t) :
    BeforeRun s ∧ v < 256 ∧
      (a < 256 ∧ t = { s with
          mem := writeCell s.mem a (BitVec.ofNat 8 v)
          mar := BitVec.ofNat 8 a
          mdr := BitVec.ofNat 8 v } ∨
        256 ≤ a ∧ t = abortRun (.outOfRange a) s) := by
  unfold presentWrite at h
  split at h
  · obtain ⟨hb, h⟩ := beforeRunOnly_next h
    refine ⟨hb, ‹_›, ?_⟩
    rcases Nat.lt_or_ge a 256 with ha | ha
    · rw [memWrite_of_lt ha, settle_done] at h
      cases h
      exact .inl ⟨ha, rfl⟩
    · rw [memWrite_of_ge ha, settle_raised] at h
      cases h
      exact .inr ⟨ha, rfl⟩
  · cases h

end Sys2Proof.Machine
end

