-- ==== Sys2Proof/Laws/PerInstr.lean ====
section
/-! SUPPORT. The family EncodingShape: an instruction's bytes are as many as its length says, between one and three, and
the first is the opcode of its row of the dispatch table (30_encoding.md R50, R54). -/

namespace Sys2Proof.Laws.EncodingShape

/-- The shape of an instruction's encoding. -/
def Statement (i : Instr) : Prop :=
  (encode i).length = instrLength i ∧ 1 ≤ instrLength i ∧ instrLength i ≤ 3 ∧
    (encode i).head? = (rowOf (mnemonicOf i)).map DispatchRow.opcode

theorem ldi (a imm : Byte) : Statement (.ldi a imm) := ⟨rfl, (by decide : 1 ≤ 3), (by decide : 3 ≤ 3), rfl⟩
theorem prn (a : Byte) : Statement (.prn a) := ⟨rfl, (by decide : 1 ≤ 2), (by decide : 2 ≤ 3), rfl⟩
theorem mul (a b : Byte) : Statement (.mul a b) := ⟨rfl, (by decide : 1 ≤ 3), (by decide : 3 ≤ 3), rfl⟩
theorem hlt : Statement .hlt := ⟨rfl, (by decide : 1 ≤ 1), (by decide : 1 ≤ 3), rfl⟩

end Sys2Proof.Laws.EncodingShape
end

