-- ==== Sys2Proof/Laws/Step.lean ====
section
/-! SUPPORT. Everything one step of a running engine can do, said once. -/

namespace Sys2Proof.Machine

/-- The handlers with every register there, and with a bad one (R85, R88, R96). -/
theorem handleLdi_of_lt {a : Byte} (h : a.toNat < 8) (imm : Byte) (s : State) :
    handleLdi a imm s = .done 3 { s with x := s.x.set a.toNat imm.toNat h } := by
  simp only [handleLdi, regSet_of_lt h, andThen_done, zextReg]

theorem handleLdi_of_ge {a : Byte} (h : 8 ≤ a.toNat) (imm : Byte) (s : State) :
    handleLdi a imm s = .raised (.invalidRegister a) s := by
  simp only [handleLdi, regSet_of_ge h, andThen_raised]

theorem handlePrn_of_lt {a : Byte} (h : a.toNat < 8) (s : State) :
    handlePrn a s = .done 2 (emit (.print (s.x[a.toNat])) s) := by
  simp only [handlePrn, regGet_of_lt h, andThen_done]

theorem handlePrn_of_ge {a : Byte} (h : 8 ≤ a.toNat) (s : State) :
    handlePrn a s = .raised (.invalidRegister a) s := by
  simp only [handlePrn, regGet_of_ge h, andThen_raised]

theorem handleMul_of_lt {a b : Byte} (ha : a.toNat < 8) (hb : b.toNat < 8) (s : State) :
    handleMul a b s =
      .done 3 { s with x := s.x.set a.toNat (normReg s.regw (s.x[a.toNat] * s.x[b.toNat])) ha } := by
  simp only [handleMul, aluApply, aluBinary_of_lt _ ha hb, andThen_done]

theorem handleMul_of_ge_left {a : Byte} (b : Byte) (ha : 8 ≤ a.toNat) (s : State) :
    handleMul a b s = .raised (.invalidRegister a) s := by
  simp only [handleMul, aluApply, aluBinary_of_ge_left _ b ha, andThen_raised]

theorem handleMul_of_ge_right {a b : Byte} (ha : a.toNat < 8) (hb : 8 ≤ b.toNat) (s : State) :
    handleMul a b s = .raised (.invalidRegister b) s := by
  simp only [handleMul, aluApply, aluBinary_of_ge_right _ ha hb, andThen_raised]

/-- What one step of a running engine can do (R80, R127), each outcome with its guard and its whole effect:
a failing read of the fetch; an opcode outside the table; the four instructions; a register that does not exist. -/
inductive StepCase (s : State) : State → Prop where
  | outOfRange (a : Nat) (m d : Byte) (hpc : 253 < s.pc.toNat) (ha : 256 ≤ a) (ha' : s.pc.toNat ≤ 256 → a = 256) :
      StepCase s (abortRun (.outOfRange a) { s with mar := m, mdr := d })
  | invalid (hpc : s.pc.toNat ≤ 253) (hop : lookupOpcode (cellAt s 0) = none) :
      StepCase s (halt .invalidInstruction (.invalidInstructionReport (cellAt s 0)) (afterFetch s))
  | ldi (hpc : s.pc.toNat ≤ 253) (hop : cellAt s 0 = 0x82) (ha : (cellAt s 1).toNat < 8) :
      StepCase s (advancePc 3
        { afterFetch s with x := s.x.set (cellAt s 1).toNat (cellAt s 2).toNat ha })
  | prn (hpc : s.pc.toNat ≤ 253) (hop : cellAt s 0 = 0x47) (ha : (cellAt s 1).toNat < 8) :
      StepCase s (advancePc 2 (emit (.print (s.x[(cellAt s 1).toNat])) (afterFetch s)))
  | mul (hpc : s.pc.toNat ≤ 253) (hop : cellAt s 0 = 0xA2)
      (ha : (cellAt s 1).toNat < 8) (hb : (cellAt s 2).toNat < 8) :
      StepCase s (advancePc 3
        { afterFetch s with
          x := s.x.set (cellAt s 1).toNat (normReg s.regw (s.x[(cellAt s 1).toNat] * s.x[(cellAt s 2).toNat])) ha })
  | hlt (hpc : s.pc.toNat ≤ 253) (hop : cellAt s 0 = 0x01) :
      StepCase s (halt .hlt .haltNotice (afterFetch s))
  | badFirst (hpc : s.pc.toNat ≤ 253) (hop : cellAt s 0 = 0x82 ∨ cellAt s 0 = 0x47 ∨ cellAt s 0 = 0xA2)
      (ha : 8 ≤ (cellAt s 1).toNat) :
      StepCase s (abortRun (.invalidRegister (cellAt s 1)) (afterFetch s))
  | badSecond (hpc : s.pc.toNat ≤ 253) (hop : cellAt s 0 = 0xA2)
      (ha : (cellAt s 1).toNat < 8) (hb : 8 ≤ (cellAt s 2).toNat) :
      StepCase s (abortRun (.invalidRegister (cellAt s 2)) (afterFetch s))

/-- A step of a running engine answers a next state, by one of the cases. -/
theorem runningStep_case (s : State) : ∃ t, runningStep s = .next t ∧ StepCase s t := by
  rcases Nat.lt_or_ge 253 s.pc.toNat with hpc | hpc
  · obtain ⟨a, m, d, ha, ha', hr⟩ := readThree_of_gt hpc
    exact ⟨_, by simp only [runningStep, hr], .outOfRange a m d hpc ha ha'⟩
  · simp only [runningStep, readThree_of_le hpc, decode_eq]
    split
    · rename_i i hd
      split at hd
      · cases hd
        simp only [exec, execLdi]
        rcases Nat.lt_or_ge (cellAt s 1).toNat 8 with ha | ha
        · exact ⟨_, by rw [handleLdi_of_lt ha, finish_done]; rfl, .ldi hpc ‹_› ha⟩
        · exact ⟨_, by rw [handleLdi_of_ge ha, finish_raised], .badFirst hpc (.inl ‹_›) ha⟩
      split at hd
      · cases hd
        simp only [exec, execPrn]
        rcases Nat.lt_or_ge (cellAt s 1).toNat 8 with ha | ha
        · exact ⟨_, by rw [handlePrn_of_lt ha, finish_done]; rfl, .prn hpc ‹_› ha⟩
        · exact ⟨_, by rw [handlePrn_of_ge ha, finish_raised], .badFirst hpc (.inr (.inl ‹_›)) ha⟩
      split at hd
      · cases hd
        simp only [exec, execMul]
        rcases Nat.lt_or_ge (cellAt s 1).toNat 8 with ha | ha
        · rcases Nat.lt_or_ge (cellAt s 2).toNat 8 with hb | hb
          · exact ⟨_, by rw [handleMul_of_lt ha hb, finish_done]; rfl, .mul hpc ‹_› ha hb⟩
          · exact ⟨_, by rw [handleMul_of_ge_right ha hb, finish_raised], .badSecond hpc ‹_› ha hb⟩
        · exact ⟨_, by rw [handleMul_of_ge_left _ ha, finish_raised], .badFirst hpc (.inr (.inr ‹_›)) ha⟩
      split at hd
      · cases hd
        exact ⟨_, by simp only [exec, execHlt, handleHlt, finish_done, advancePc_halt], .hlt hpc ‹_›⟩
      · cases hd
    · rename_i o hd
      rw [← decode_eq] at hd
      obtain ⟨hn, rfl⟩ := (decode_invalid_iff _ _ _ _).mp hd
      exact ⟨_, by simp only [execInvalid, handleInvalid, finish_done, advancePc_halt], .invalid hpc hn⟩

/-- The cases of a step that answers a next state (R70): a halted engine stays as it is. -/
theorem step_cases {s t : State} (h : step s = .next t) :
    (s.run = .halted ∧ t = s) ∨ (s.run = .running ∧ StepCase s t) := by
  unfold step sequencerStep at h
  split at h
  · obtain ⟨t', ht, hc⟩ := runningStep_case s
    rw [ht] at h
    cases h
    exact .inr ⟨‹_›, hc⟩
  · cases h
    exact .inl ⟨‹_›, rfl⟩
  · cases h

end Sys2Proof.Machine
end

