-- ==== Sys2Proof/Tests/Slice0.lean ====
section
/-! SUPPORT. Small tests, their expected values from the spec's encodings and its vectors (95_test_vectors.md, named at
each), and for every statement with hypotheses a witness that meets them, at the boundary of each clause. -/

namespace Sys2Proof.Tests

open Sys2Proof Sys2Proof.Machine

/-- The reset state with pc and the bytes from pc on given. -/
def ready (pc : PcWord) (bytes : List Byte) : State :=
  { State.reset with pc := pc, mem := placeBytes pc.toNat bytes [] }

/-- The same with one register preset. -/
def readyWith (pc : PcWord) (bytes : List Byte) (r : Nat) (v : Nat) (h : r < 8 := by decide) : State :=
  { ready pc bytes with x := (ready pc bytes).x.set r v h }

/-- The outcome is a next state of which `p` holds. -/
def nextHas (o : Host.Outcome State Fault Refusal) (p : State → Bool) : Bool :=
  match o with
  | .next t => p t
  | .fault _ => false
  | .refused _ => false

/-- The attempt succeeded, and `p` holds of its value and state. -/
def doneHas {α : Type} (r : Attempt α) (p : α → State → Bool) : Bool :=
  match r with
  | .done v s => p v s
  | .raised _ _ => false

/-- The attempt raised, and `p` holds of the error and the state. -/
def raisedHas {α : Type} (r : Attempt α) (p : Raised → State → Bool) : Bool :=
  match r with
  | .done _ _ => false
  | .raised e s => p e s

/-! ### Well-formedness: an ill-formed term for each check, refused -/

theorem test_wf_refuses_ldi_to_r8 : (Instr.ldi 8 0).wf = false := by decide
theorem test_wf_refuses_prn_of_r255 : (Instr.prn 255).wf = false := by decide
theorem test_wf_refuses_mul_with_bad_first : (Instr.mul 8 0).wf = false := by decide
theorem test_wf_refuses_mul_with_bad_second : (Instr.mul 0 8).wf = false := by decide
theorem test_wf_accepts_hlt_and_r7 : Instr.hlt.wf = true ∧ (Instr.mul 7 7).wf = true := by decide
theorem test_width_refuses_seven_bits : (RegWidth.bits 7).legal = false := by decide
theorem test_regval_refuses_256_at_width_8 : isRegval (.bits 8) 256 = false := by decide
theorem test_memory_refuses_a_listed_zero : Memory.wf [(3, 0)] = false := by decide
theorem test_memory_refuses_falling_addresses : Memory.wf [(3, 1), (2, 1)] = false := by decide
theorem test_memory_refuses_address_256 : Memory.wf [(256, 1)] = false := by decide

/-! ### Decoding: words written out from 30_encoding.md R54 and R63 -/

theorem test_decode_ldi : decode 0b10000010 0b00000000 0b00001000 = .instr (.ldi 0 8) := by decide
theorem test_decode_prn : decode 0b01000111 0b00000000 0b00000001 = .instr (.prn 0) := by decide
theorem test_decode_mul : decode 0b10100010 0b00000000 0b00000001 = .instr (.mul 0 1) := by decide
theorem test_decode_hlt : decode 0b00000001 0b11101110 0b11011101 = .instr .hlt := by decide
/-- V-INV-1, V-INV-3, V-INV-6. -/
theorem test_decode_refuses_neighbours :
    decode 0x00 0 0 = .invalidOpcode 0x00 ∧ decode 0xA0 0 1 = .invalidOpcode 0xA0 ∧
    decode 0x83 0x63 0x63 = .invalidOpcode 0x83 := by decide
/-- The source's LDI scenario (R63). -/
theorem test_encode_source_scenario :
    encode (.ldi 0 8) ++ encode (.prn 0) ++ encode .hlt = [0x82, 0x00, 0x08, 0x47, 0x00, 0x01] := by decide
theorem test_table_word : decodeTableWord 24 0x0100A2 = some (.mul 0 1) ∧ decodeTableWord 8 0x47 = some (.prn 0) := by
  decide
theorem test_fetch_word_runs :
    nextHas (step (State.reset.withFetchWord 24 0x082A82)) (fun t => t.run == .aborted) = true ∧
    nextHas (step (State.reset.withFetchWord 24 0x2A0182)) (fun t => t.x[1] == 42) = true := by decide

/-! ### The arbiter and the register multiplexer (V-MEM-2, V-MEM-6, V-MEM-7, V-REG-2, V-REG-5) -/

theorem test_write_then_read_255 :
    doneHas (andThen (memWrite 255 255 State.reset) fun _ s => memRead 255 s)
      (fun v s => v == 255 && s.mar == 255 && s.mdr == 255) = true := by decide
theorem test_failing_access_keeps_shadows :
    raisedHas (andThen (memWrite 3 9 State.reset) fun _ s => memWrite 256 1 s)
      (fun e s => e == .outOfRange 256 && s.mar == 3 && s.mdr == 9 && readCell s.mem 0 == 0) = true := by decide
theorem test_set_get_r7 :
    doneHas (andThen (regSet 7 255 State.reset) fun _ s => regGet 7 s) (fun v s => v == 255 && s.x[0] == 0) = true := by
  decide
theorem test_set_r8_raises : raisedHas (regSet 8 1 State.reset) (fun e s => e == .invalidRegister 8 && s.x[0] == 0) = true := by
  decide

/-! ### The instructions, one step each -/

/-- V-LDI-1. -/
theorem test_ldi : nextHas (step (ready 0 [0x82, 0x00, 0x08]))
    (fun t => t.x[0] == 8 && t.pc == 3 && t.mar == 2 && t.mdr == 8) = true := by decide
/-- V-LDI-6. -/
theorem test_ldi_at_253 : nextHas (step (ready 253 [0x82, 0x01, 0x2A]))
    (fun t => t.x[1] == 42 && t.pc == 256 && t.mar == 255 && t.run == .running) = true := by decide
/-- V-PRN-6. -/
theorem test_prn : nextHas (step (readyWith 0 [0x47, 0x01, 0xFF] 1 7))
    (fun t => t.out == [.print 7] && t.pc == 2 && t.mdr == 0xFF) = true := by decide
/-- V-FET-7. -/
theorem test_prn_at_254 : nextHas (step (ready 254 [0x47, 0x00]))
    (fun t => t.run == .aborted && t.fault == some (.outOfRange 256) && t.out == [] && t.mar == 255) = true := by decide
/-- V-MUL-10 with `b = a`: 255 × 255 keeps the low byte, 1. -/
theorem test_mul_wraps : nextHas (step (readyWith 0 [0xA2, 0x03, 0x03] 3 255))
    (fun t => t.x[3] == 1 && t.pc == 3) = true := by decide
/-- V-MUL-15. -/
theorem test_mul_first_operand_first : nextHas (step (ready 0 [0xA2, 0x09, 0x08]))
    (fun t => t.run == .aborted && t.fault == some (.invalidRegister 9) && t.pc == 0 && t.mdr == 8) = true := by decide
/-- V-HLT-2. -/
theorem test_hlt : nextHas (step (ready 5 [0x01, 0xFF, 0xFF]))
    (fun t => t.run == .halted && t.cause == .hlt && t.pc == 5 && t.mar == 7 && t.out == [.haltNotice]) = true := by decide
/-- V-INV-8. -/
theorem test_invalid : nextHas (step (ready 0 [0x83, 0x63, 0x63]))
    (fun t => t.cause == .invalidInstruction && t.fault == none && t.out == [.invalidInstructionReport 0x83]) = true := by
  decide
/-- The same product at width unbounded (V-MUL-10, "unb"). -/
theorem test_mul_unbounded : nextHas (step { readyWith 0 [0xA2, 0x03, 0x03] 3 255 with regw := .unbounded })
    (fun t => t.x[3] == 65025) = true := by decide

/-! ### The ALU driven directly (V-ALU-3, V-ALU-8) -/

theorem test_alu_add_wraps :
    doneHas (aluApply .add 0 1 { readyWith 0 [] 0 200 with x := #v[200, 100, 0, 0, 0, 0, 0, 0] })
      (fun _ s => s.x[0] == 44) = true := by decide
theorem test_alu_other_tag : raisedHas (aluApply (.other 5) 9 9 State.reset)
    (fun e _ => e == .unsupportedOperation (.other 5)) = true := by decide

/-! ### The host's side (V-TRC-2, V-TRC-3, R89, R106) -/

theorem test_trace : nextHas (trace (readyWith 3 [0x47, 0x00, 0x01] 0 8))
    (fun t => t.out == [.trace 3 0x47 0 1 #v[8, 0, 0, 0, 0, 0, 0, 0]] && t.mar == 5 && t.mdr == 1 && t.pc == 3) = true := by
  decide
theorem test_trace_at_254 : nextHas (trace (ready 254 []))
    (fun t => t.run == .aborted && t.out == [] && t.mar == 255) = true := by decide
theorem test_digits : decimalDigits 0 = [0] ∧ decimalDigits 100 = [1, 0, 0] ∧ decimalDigits 65025 = [6, 5, 0, 2, 5] := by
  decide
theorem test_launch_loads : nextHas (launch { Launch.default with image := [0x82, 0, 8] })
    (fun t => readCell t.mem 0 == 0x82 && readCell t.mem 2 == 8 && readCell t.mem 3 == 0) = true := by decide

/-- R113, log 23: after the run has ended a bad address or index of the host's touches nothing. -/
theorem test_host_access_after_the_run :
    (match presentWrite 256 1 (halt .hlt .haltNotice (ready 0 [])) with | .refused r => r == .runHasBegun | _ => false) = true ∧
    (match preload 8 1 (halt .hlt .haltNotice (ready 0 [])) with | .refused r => r == .runHasBegun | _ => false) = true := by
  decide
/-- R122: a bad index of a preload before the run. -/
theorem test_preload_of_r8 : nextHas (preload 8 1 State.reset)
    (fun t => t.run == .aborted && t.fault == some (.invalidRegister 8)) = true := by decide

/-! ### Witnesses: states that meet the invariant -/

/-- Before the first step, at any pc the engine can have. -/
theorem ready_inv {pc : PcWord} (h : pc.toNat ≤ 256) (m : Memory) (hm : m.wf = true) :
    StateInv { State.reset with pc := pc, mem := m } := by
  refine ⟨hm, h, rfl, ?_, by simp [State.reset], by simp [State.reset], ?_, ?_, by simp [State.reset], ?_⟩
  · exact (by decide : ∀ (r : Nat) (h : r < 8), isRegval State.reset.regw State.reset.x[r] = true)
  all_goals simp [State.reset]

theorem witness_inv_at_the_top :
    StateInv (ready 253 [0x01]) ∧ StateInv (ready 254 [0x01]) ∧ StateInv (ready 255 [0x01]) ∧ StateInv (ready 256 []) :=
  ⟨ready_inv (by decide) _ (by decide), ready_inv (by decide) _ (by decide), ready_inv (by decide) _ (by decide),
    ready_inv (by decide) _ (by decide)⟩

/-- A state HLT has ended, a state an invalid opcode has ended, a state an error has ended, and a running one. -/
theorem witness_HostOwesTheEndTheCauseAsksFor :
    (StateInv (halt .hlt .haltNotice (ready 0 [0x01])) ∧ (halt .hlt .haltNotice (ready 0 [0x01])).cause = .hlt) ∧
    (StateInv (halt .invalidInstruction (.invalidInstructionReport 0) (ready 0 [])) ∧
      (halt .invalidInstruction (.invalidInstructionReport 0) (ready 0 [])).cause = .invalidInstruction) ∧
    (StateInv (abortRun (.outOfRange 256) (ready 254 [])) ∧ (abortRun (.outOfRange 256) (ready 254 [])).run = .aborted) ∧
    StateInv (ready 0 [0x01]) ∧ (ready 0 [0x01]).run = .running := by
  refine ⟨⟨⟨by decide, by decide, rfl, by decide, by decide, by decide, ?_, ?_, by decide, ?_⟩, rfl⟩,
    ⟨⟨by decide, by decide, rfl, by decide, by decide, by decide, ?_, ?_, by decide, ?_⟩, rfl⟩,
    ⟨⟨by decide, by decide, rfl, by decide, by decide, by decide, ?_, ?_, by decide, ?_⟩, rfl⟩,
    ready_inv (by decide) _ (by decide), rfl⟩
  all_goals simp [halt, emit, abortRun, ready, State.reset, State.construct]
  decide

/-! ### Witnesses: encoding and memory -/

theorem witness_DecodeReadsExactlyWhatEncodeWrites :
    encode (.mul 255 0) <+: [0xA2, 255, 0] ∧ encode .hlt <+: [0x01, 7, 8] := by decide
theorem witness_NoEncodingBeginsAnother : encode (.prn 3) <+: encode (.prn 3) := by decide
theorem witness_EveryOtherOpcodeHaltsTheRun :
    ∀ op ∈ [0x00, 0x02, 0x46, 0x48, 0x83, 0xA0, 0xFF], (ready 253 [op]).run = .running ∧ (ready 253 [op]).pc.toNat = 253 ∧
      cellAt (ready 253 [op]) 0 ≠ 0x01 ∧ cellAt (ready 253 [op]) 0 ≠ 0x47 ∧ cellAt (ready 253 [op]) 0 ≠ 0x82 ∧
      cellAt (ready 253 [op]) 0 ≠ 0xA2 := by decide
theorem witness_MemoryReadContract :
    doneHas (memRead 255 (ready 255 [7])) (fun v s => v == 7 && s.mar == 255) = true ∧
    raisedHas (memRead 256 (ready 255 [7])) (fun e _ => e == .outOfRange 256) = true := by decide
theorem witness_MemoryWriteContract :
    (ready 255 [7]).mem.wf = true ∧ (255 < 256 ∧ 256 ≤ 256) ∧
    ∃ t, step (ready 0 [0x01]) = .next t := ⟨by decide, by decide, _, rfl⟩
theorem witness_MemoriesThatReadAlikeAreEqual :
    Memory.wf [(0, 1), (255, 2)] = true ∧ ∀ a, a < 256 → readCell [(0, 1), (255, 2)] a = readCell [(0, 1), (255, 2)] a :=
  ⟨by decide, fun _ _ => rfl⟩
theorem witness_OnlyResetAndLoaderWriteMemory :
    (List.replicate 256 (1 : Byte)).length ≤ 256 ∧ (∃ t, step (ready 0 [0x82, 1, 2]) = .next t) ∧
    (∃ t, trace (ready 253 [0x01]) = .next t) ∧ (∃ t, preload 7 255 (ready 0 []) = .next t) ∧
    (∃ t, exec (.mul 0 7) (ready 253 [0x01]) = .next t) ∧
    ∀ k, k < 3 → (ready 254 [9, 8]).pc.toNat + k < 256 →
      readCell [(0, 5), (254, 9), (255, 8)] ((ready 254 [9, 8]).pc.toNat + k) =
        readCell (ready 254 [9, 8]).mem ((ready 254 [9, 8]).pc.toNat + k) :=
  ⟨by rw [List.length_replicate], ⟨_, rfl⟩, ⟨_, rfl⟩, ⟨_, rfl⟩, ⟨_, rfl⟩, by decide⟩

/-! ### Witnesses: registers, ALU, instructions -/

theorem witness_register_indices :
    (7 : Byte).toNat < 8 ∧ 8 ≤ (8 : Byte).toNat ∧ 8 ≤ (255 : Byte).toNat := by decide
theorem witness_AluComputesProductAndSum : (7 : Byte).toNat < 8 ∧ (0 : Byte).toNat < 8 := by decide
theorem witness_AluRaisesInTheOrderOfItsChecks :
    8 ≤ (8 : Byte).toNat ∧ ((7 : Byte).toNat < 8 ∧ 8 ≤ (8 : Byte).toNat) := by decide
theorem witness_WidthsAgreeOnRunsWithoutOverflow :
    ∀ k, k ≤ 1 → ∀ (r : Nat) (h : r < 8),
      (runFor k { readyWith 0 [0xA2, 3, 3] 3 15 with regw := .unbounded }).x[r] < 256 := by
  intro k hk
  interval_cases k <;> decide
theorem witness_exec_completions :
    (ready 0 []).run = .running ∧ (0 : Byte).toNat < 8 ∧ (7 : Byte).toNat < 8 := by decide
theorem witness_ExecOfAMissingRegisterAborts :
    8 ≤ (8 : Byte).toNat ∧ ((7 : Byte).toNat < 8 ∧ 8 ≤ (255 : Byte).toNat) := by decide
theorem witness_InstructionFrame :
    (∃ t, exec (.ldi 7 9) (ready 0 []) = .next t) ∧ (∃ t, exec (.prn 8) (ready 0 []) = .next t) ∧
    (∃ t, exec (.mul 0 0) (ready 0 []) = .next t) ∧ ∃ t, exec .hlt (ready 0 []) = .next t :=
  ⟨⟨_, rfl⟩, ⟨_, rfl⟩, ⟨_, rfl⟩, _, rfl⟩
theorem witness_InstructionFrame_changes :
    nextHas (exec (.ldi 7 9) (ready 0 [])) (fun t => t.x[7] != (ready 0 []).x[7]) = true ∧
    nextHas (exec (.prn 8) (ready 0 [])) (fun t => t.fault != none && t.run != .running) = true ∧
    nextHas (exec .hlt (ready 0 [])) (fun t => t.out != [] && t.cause != .none) = true := by decide
theorem witness_MulOperandsCommuteInValue :
    (ready 0 []).run = .running ∧ (0 : Byte).toNat < 8 ∧ (7 : Byte).toNat < 8 := by decide

/-! ### Witnesses: the step -/

theorem witness_StepRunsTheDecodedInstruction :
    (ready 253 [0x82, 7, 9]).run = .running ∧ (ready 253 [0x82, 7, 9]).pc.toNat = 253 ∧
    decode (readCell (ready 253 [0x82, 7, 9]).mem 253) (readCell (ready 253 [0x82, 7, 9]).mem 254)
      (readCell (ready 253 [0x82, 7, 9]).mem 255) = .instr (.ldi 7 9) := by decide
theorem witness_LdiStep :
    ((ready 253 [0x82, 7, 9]).run = .running ∧ cellAt (ready 253 [0x82, 7, 9]) 0 = 0x82 ∧
      (ready 253 [0x82, 7, 9]).pc.toNat = 253 ∧ (cellAt (ready 253 [0x82, 7, 9]) 1).toNat < 8) ∧
    (cellAt (ready 253 [0x82, 8, 9]) 0 = 0x82 ∧ 8 ≤ (cellAt (ready 253 [0x82, 8, 9]) 1).toNat) ∧
    (cellAt (ready 254 [0x82, 7]) 0 = 0x82 ∧ (ready 254 [0x82, 7]).pc.toNat = 254) ∧
    (cellAt (ready 255 [0x82]) 0 = 0x82 ∧ (ready 255 [0x82]).pc.toNat = 255) := by decide
theorem witness_PrnStep :
    ((ready 253 [0x47, 7]).run = .running ∧ cellAt (ready 253 [0x47, 7]) 0 = 0x47 ∧
      (ready 253 [0x47, 7]).pc.toNat = 253 ∧ (cellAt (ready 253 [0x47, 7]) 1).toNat < 8) ∧
    (cellAt (ready 253 [0x47, 8]) 0 = 0x47 ∧ 8 ≤ (cellAt (ready 253 [0x47, 8]) 1).toNat) ∧
    (cellAt (ready 254 [0x47, 0]) 0 = 0x47 ∧ (ready 254 [0x47, 0]).pc.toNat = 254) ∧
    (cellAt (ready 255 [0x47]) 0 = 0x47 ∧ (ready 255 [0x47]).pc.toNat = 255) := by decide
theorem witness_MulStep :
    ((ready 253 [0xA2, 7, 7]).run = .running ∧ (ready 253 [0xA2, 7, 7]).pc.toNat = 253 ∧
      cellAt (ready 253 [0xA2, 7, 7]) 0 = 0xA2 ∧ (cellAt (ready 253 [0xA2, 7, 7]) 1).toNat < 8 ∧
      (cellAt (ready 253 [0xA2, 7, 7]) 2).toNat < 8) ∧
    (cellAt (ready 253 [0xA2, 8, 0]) 0 = 0xA2 ∧ 8 ≤ (cellAt (ready 253 [0xA2, 8, 0]) 1).toNat) ∧
    (cellAt (ready 253 [0xA2, 7, 8]) 0 = 0xA2 ∧ 8 ≤ (cellAt (ready 253 [0xA2, 7, 8]) 2).toNat) := by decide
theorem witness_HltStep :
    ((ready 253 [0x01]).run = .running ∧ cellAt (ready 253 [0x01]) 0 = 0x01 ∧ (ready 253 [0x01]).pc.toNat = 253) ∧
    (cellAt (ready 254 [0x01]) 0 = 0x01 ∧ (ready 254 [0x01]).pc.toNat = 254) ∧
    (cellAt (ready 255 [0x01]) 0 = 0x01 ∧ (ready 255 [0x01]).pc.toNat = 255) := by decide
theorem witness_InvalidOpcodeStep :
    (ready 253 [0xA0, 0, 1]).run = .running ∧ (ready 253 [0xA0, 0, 1]).pc.toNat = 253 ∧
    lookupOpcode (cellAt (ready 253 [0xA0, 0, 1]) 0) = none := by decide
theorem witness_PcAdvanceLaw :
    nextHas (step (ready 253 [0x82, 0, 1])) (fun t => t.run != .aborted) = true ∧
    nextHas (step (ready 253 [0x47, 0, 1])) (fun t => t.run != .aborted) = true ∧
    nextHas (step (ready 253 [0xA2, 0, 1])) (fun t => t.run != .aborted) = true ∧
    nextHas (step (ready 253 [0x01, 0, 1])) (fun t => t.run != .aborted) = true := by decide
theorem witness_InstructionsExecuteOnlyAt253OrBelow :
    ((ready 254 [0x01]).run = .running ∧ (ready 254 [0x01]).fault = none ∧ (ready 254 [0x01]).pc.toNat = 254) ∧
    (ready 256 []).pc.toNat = 256 ∧
    ((ready 253 [0x01]).pc.toNat = 253 ∧ nextHas (step (ready 253 [0x01])) (fun t => t.run == .halted) = true) := by
  decide
theorem witness_ShadowRegistersHoldTheLastRead :
    (∃ t, step (ready 253 [0x01]) = .next t) ∧ (∃ t, step (ready 254 [0x01]) = .next t) ∧
    (∃ t, step (ready 255 [0x01]) = .next t) ∧ ∃ t, step (ready 256 []) = .next t :=
  ⟨⟨_, rfl⟩, ⟨_, rfl⟩, ⟨_, rfl⟩, _, rfl⟩
theorem witness_RegistersChangeOnlyAsFirstOperand :
    nextHas (step (ready 253 [0x82, 7, 9])) (fun t => t.x[7] != (ready 253 [0x82, 7, 9]).x[7]) = true := by decide
theorem witness_OutputGrowsByAtMostOneEvent :
    nextHas (step (ready 0 [0x47, 0])) (fun t => t.out == [.print 0]) = true ∧
    nextHas (step (ready 254 [])) (fun t => t.run == .aborted && t.out == []) = true := by decide
theorem witness_SequencerTransitions :
    ((ready 253 [0x01]).run = .running ∧ (ready 253 [0x01]).cause = .none) ∧
    nextHas (step (ready 253 [0x01])) (fun t => t.run == .halted && t.cause == .hlt) = true ∧
    nextHas (step (ready 253 [0x00])) (fun t => t.run == .halted && t.cause == .invalidInstruction) = true ∧
    nextHas (step (ready 253 [0xA2, 7, 8])) (fun t => t.run == .aborted) = true ∧
    nextHas (step (ready 253 [0x47, 7])) (fun t => t.run == .running) = true := by decide
theorem witness_TerminalStatesAreFrozen :
    (halt .hlt .haltNotice (ready 0 [])).run = .halted ∧ (abortRun (.outOfRange 256) (ready 254 [])).run = .aborted := by
  decide
theorem witness_AbortsArePrecise :
    nextHas (step (ready 255 [0x01])) (fun t => t.run == .aborted) = true ∧
    nextHas (step (ready 253 [0x82, 8, 1])) (fun t => t.run == .aborted) = true := by decide
theorem witness_FirstFailingCheckIsReported :
    (ready 254 [0xFF]).run = .running ∧ (ready 254 [0xFF]).pc.toNat = 254 ∧ (ready 254 [0xFF]).fault = none ∧
    (ready 254 [0xFF]).cause = .none := by decide
/-- One state at the edge of each rung of the order of checks (V-ERR-1, V-ERR-4, V-ERR-5, V-MUL-13). -/
theorem witness_FirstFailingCheckIsReported_rungs :
    nextHas (step (ready 254 [0xFF])) (fun t => errorCode (reportedKind t) == 1) = true ∧
    nextHas (step (ready 253 [0x83, 0x63, 0x63])) (fun t => errorCode (reportedKind t) == 3) = true ∧
    nextHas (step (ready 253 [0x01, 0x63, 0x63])) (fun t => errorCode (reportedKind t) == 0) = true ∧
    nextHas (step (ready 253 [0xA2, 0x09, 0x08])) (fun t => t.fault == some (.invalidRegister 9)) = true ∧
    nextHas (step (ready 253 [0xA2, 0x07, 0x08])) (fun t => t.fault == some (.invalidRegister 8)) = true ∧
    nextHas (step (ready 253 [0x82, 0x07, 0x08])) (fun t => errorCode (reportedKind t) == 0) = true := by decide
theorem witness_OutOfRangeArisesOnlyAtTheTopOfMemory :
    StateInv (ready 254 [0x01]) ∧ (ready 254 [0x01]).run = .running ∧
    nextHas (step (ready 254 [0x01])) (fun t => t.fault == some (.outOfRange 256)) = true ∧
    nextHas (trace (ready 256 [])) (fun t => t.fault == some (.outOfRange 256)) = true ∧
    (ready 0 []).fault = none ∧ nextHas (exec (.prn 8) (ready 0 [])) (fun _ => true) = true :=
  ⟨witness_inv_at_the_top.2.1, by decide⟩

/-! ### Witnesses: trace, launch, whole-machine rules -/

theorem witness_ShadowRegistersAreNeverConsulted :
    (ready 255 [0x01]).run = .running ∧ (ready 255 [0x01]).pc.toNat = 255 := by decide
theorem witness_TraceEffect :
    ((ready 253 [0x01]).run = .running ∧ (ready 253 [0x01]).pc.toNat = 253) ∧
    ((ready 254 [0x01]).run = .running ∧ (ready 254 [0x01]).pc.toNat = 254) ∧
    (halt .hlt .haltNotice (ready 0 [])).run ≠ .running := by decide
theorem witness_TraceDoesNotDisturbTheRun :
    ∃ t, trace (ready 253 [0x82, 0, 1]) = .next t ∧ t.run = .running := ⟨_, rfl, rfl⟩
theorem witness_LoadPlacesTheImage :
    BeforeRun (ready 0 [5]) ∧ (ready 0 [5]).mem.wf = true ∧ (List.replicate 256 (1 : Byte)).length = 256 :=
  ⟨by decide, by decide, List.length_replicate⟩
theorem witness_LoaderDesignsAgree :
    BeforeRun (ready 0 []) ∧ (List.replicate 256 (1 : Byte)).length = 256 ∧
    256 < (List.replicate 257 (1 : Byte)).length := by
  rw [List.length_replicate, List.length_replicate]; decide
theorem witness_LaunchAcceptsExactlyTheLegalImages :
    Launch.default.regw.legal = true ∧
    (∀ (r : Nat) (h : r < 8), isRegval Launch.default.regw Launch.default.regInit[r] = true) ∧
    (∀ v ∈ [0, 255], v < 256) ∧ (∃ v ∈ [0, 256], 256 ≤ v) ∧ 256 < (List.replicate 257 1).length := by
  exact ⟨rfl, by decide, by decide, by decide, by rw [List.length_replicate]; decide⟩
theorem witness_LaunchedStateIsReadyToRun :
    ∃ s, launch { Launch.default with image := [0x82, 0, 255], regw := .unbounded } = .next s := ⟨_, rfl⟩
theorem witness_PreloadSetsOneRegister :
    BeforeRun State.reset ∧ isRegval State.reset.regw 255 = true ∧ (7 : Byte).toNat < 8 ∧ 8 ≤ (8 : Byte).toNat ∧
    isRegval State.reset.regw 256 = false := by decide
theorem witness_OnlyBytesCanBeWritten : 256 ≤ 256 ∧ 255 < 256 ∧ BeforeRun State.reset ∧
    nextHas (presentWrite 255 255 State.reset) (fun t => readCell t.mem 255 == 255) = true := by decide
/-- V-PRN-2, V-PRN-3 (R89): the first and the last value of width 8. -/
theorem witness_PrintedDigitsDenoteTheValue : decimalDigits 0 = [0] ∧ decimalDigits 255 = [2, 5, 5] := by decide
theorem witness_HostWritesOnlyBeforeTheRun :
    (∃ t, step (ready 0 [0x47, 0]) = .next t) ∧ (halt .hlt .haltNotice (ready 0 [])).run = .halted ∧
    (abortRun (.outOfRange 256) (ready 254 [])).run = .aborted ∧
    ¬ BeforeRun (ready 2 []) ∧ ¬ BeforeRun (halt .hlt .haltNotice (ready 0 [])) := ⟨⟨_, rfl⟩, by decide⟩
theorem witness_PreloadAndLoadMayComeInEitherOrder :
    BeforeRun State.reset ∧ (7 : Byte).toNat < 8 ∧ isRegval State.reset.regw 255 = true ∧
    (List.replicate 256 (1 : Byte)).length ≤ 256 := ⟨by decide, by decide, by decide, by rw [List.length_replicate]⟩
theorem witness_StepKeepsTheInvariant :
    StateInv (ready 253 [0x01]) ∧ ∃ t, step (ready 253 [0x01]) = .next t :=
  ⟨witness_inv_at_the_top.1, _, rfl⟩
theorem witness_HostOperationsKeepTheInvariant :
    StateInv (ready 253 [0x01]) ∧ (∃ t, trace (ready 253 [0x01]) = .next t) ∧
    StateInv (ready 0 [0x01]) ∧ (∃ t, preload 7 255 (ready 0 [0x01]) = .next t) ∧
    (∃ t, preload 8 255 (ready 0 [0x01]) = .next t) ∧ (∃ t, load [1, 2] (ready 0 [0x01]) = .next t) ∧
    (∃ t, loadThroughArbiter [1, 2] (ready 0 [0x01]) = .next t) ∧
    (∃ t, presentWrite 255 255 (ready 0 [0x01]) = .next t) ∧ ∃ t, presentWrite 256 0 (ready 0 [0x01]) = .next t :=
  ⟨witness_inv_at_the_top.1, ⟨_, rfl⟩, ready_inv (by decide) _ (by decide), ⟨_, rfl⟩, ⟨_, rfl⟩, ⟨_, rfl⟩, ⟨_, rfl⟩,
    ⟨_, rfl⟩, _, rfl⟩
theorem witness_RunsEndInOneOfThreeWays : StateInv (ready 256 []) := witness_inv_at_the_top.2.2.2

end Sys2Proof.Tests
end

section
/-! PROOF. Facts about memory that its rules rest on (20_memory.md): a repeated read, the cells an image fills, the
operations that keep memory as it is, and the operations that do not look at it. -/

namespace Sys2Proof.Machine

/-- An address inside memory is what MAR holds after an access (R17). -/
theorem toNat_ofNat_of_lt {a : Nat} (h : a < 256) : (BitVec.ofNat 8 a).toNat = a := by
  rw [BitVec.toNat_ofNat, Nat.mod_eq_of_lt h]

/-- A read whose cell the shadow registers already show changes nothing (R32). -/
theorem memRead_of_shadowed {a : Nat} {s : State} (h : a < 256) (hmar : s.mar = BitVec.ofNat 8 a)
    (hmdr : s.mdr = readCell s.mem a) : memRead a s = .done (readCell s.mem a) s := by
  rw [memRead_of_lt h, ← hmar, ← hmdr]

/-- Bytes placed from `k` on: cell `k + j` holds byte `j`, or what it held where there is no such byte (R105). -/
theorem readCell_placeBytes (vs : List Byte) :
    ∀ {k : Nat} {m : Memory}, m.wf → ∀ {j : Nat}, k + j < 256 →
      readCell (placeBytes k vs m) (k + j) = vs.getD j (readCell m (k + j)) := by
  induction vs with
  | nil => intros; rfl
  | cons v vs ih =>
    intro k m hm j hj
    have hk : k < Config.memSize := by simp only [Config.memSize]; omega
    rw [placeBytes, if_pos hk]
    cases j with
    | zero => exact (readCell_placeBytes_below vs _ (Nat.lt_add_one k)).trans (readCell_writeCell_same hm k v)
    | succ j =>
      have hj' : k + (j + 1) = k + 1 + j := by omega
      rw [hj', ih (writeCell_wf hm hk v) (by omega), readCell_writeCell_other m v (by omega), List.getD_cons_succ]

/-! ### Operations that keep memory -/

/-- The step of a running engine (R70, R80). -/
theorem step_of_running {s : State} (h : s.run = .running) : step s = runningStep s := by
  simp only [step, sequencerStep, h]

/-- No step exists from Halted (R70). -/
theorem step_of_halted {s : State} (h : s.run = .halted) : step s = .next s := by
  simp only [step, sequencerStep, h]

/-- No step changes memory (R33, R48). -/
theorem step_mem {s t : State} (h : step s = .next t) : t.mem = s.mem := by
  rcases step_cases h with ⟨-, rfl⟩ | ⟨-, hc⟩
  · rfl
  · cases hc <;> simp

/-- What a trace that answers a next state did (R110). -/
theorem trace_next {s t : State} (h : trace s = .next t) :
    s.run = .running ∧
      ((s.pc.toNat ≤ 253 ∧ t = emit (.trace s.pc (cellAt s 0) (cellAt s 1) (cellAt s 2) s.x) (afterFetch s)) ∨
        ∃ a m d, 253 < s.pc.toNat ∧ 256 ≤ a ∧ (s.pc.toNat ≤ 256 → a = 256) ∧
          t = abortRun (.outOfRange a) { s with mar := m, mdr := d }) := by
  unfold trace at h
  split at h
  · refine ⟨‹_›, ?_⟩
    rcases Nat.lt_or_ge 253 s.pc.toNat with hpc | hpc
    · obtain ⟨a, m, d, ha, ha', hr⟩ := readThree_of_gt hpc
      rw [hr] at h
      cases h
      exact .inr ⟨a, m, d, hpc, ha, ha', rfl⟩
    · rw [readThree_of_le hpc] at h
      cases h
      exact .inl ⟨hpc, rfl⟩
  · cases h

/-- No trace changes memory (R48). -/
theorem trace_mem {s t : State} (h : trace s = .next t) : t.mem = s.mem := by
  obtain ⟨-, ⟨-, rfl⟩ | ⟨a, m, d, -, -, -, rfl⟩⟩ := trace_next h <;> rfl

/-- No register preload changes memory (R107, R48). -/
theorem preload_mem {i : Byte} {v : Nat} {s t : State} (h : preload i v s = .next t) : t.mem = s.mem := by
  obtain ⟨-, -, ⟨hi, rfl⟩ | ⟨-, rfl⟩⟩ := preload_next h <;> rfl

/-! ### Operations that do not look at memory -/

/-- The same answer, with another memory in the state after it. -/
def Attempt.withMem {α : Type} (m : Memory) : Attempt α → Attempt α
  | .done v s   => .done v { s with mem := m }
  | .raised e s => .raised e { s with mem := m }

/-- The operation answers the same whatever memory holds, and hands memory on as it found it. -/
def MemBlind {α : Type} (f : State → Attempt α) : Prop :=
  ∀ (m : Memory) (s : State), f { s with mem := m } = (f s).withMem m

/-- Operations that do not look at memory, one after the other, do not look at it either. -/
theorem MemBlind.andThen {α β : Type} {f : State → Attempt α} {g : α → State → Attempt β}
    (hf : MemBlind f) (hg : ∀ v, MemBlind (g v)) : MemBlind fun s => andThen (f s) g := by
  intro m s
  simp only [hf m s]
  cases f s with
  | done v s1 => exact hg v m s1
  | raised e s1 => rfl

theorem memBlind_regGet (i : Byte) : MemBlind (regGet i) := by
  intro m s
  rcases Nat.lt_or_ge i.toNat 8 with hi | hi
  · rw [regGet_of_lt hi, regGet_of_lt hi]; rfl
  · rw [regGet_of_ge hi, regGet_of_ge hi]; rfl

theorem memBlind_regSet (i : Byte) (v : Nat) : MemBlind (regSet i v) := by
  intro m s
  rcases Nat.lt_or_ge i.toNat 8 with hi | hi
  · rw [regSet_of_lt hi, regSet_of_lt hi]; rfl
  · rw [regSet_of_ge hi, regSet_of_ge hi]; rfl

theorem memBlind_aluBinary (f : Nat → Nat → Nat) (a b : Byte) : MemBlind (aluBinary f a b) :=
  (memBlind_regGet a).andThen fun _ => (memBlind_regGet b).andThen fun _ m s => memBlind_regSet a _ m s

theorem memBlind_handleLdi (a imm : Byte) : MemBlind (handleLdi a imm) :=
  (memBlind_regSet a (zextReg imm)).andThen fun _ _ _ => rfl

theorem memBlind_handlePrn (a : Byte) : MemBlind (handlePrn a) :=
  (memBlind_regGet a).andThen fun _ _ _ => rfl

theorem memBlind_handleMul (a b : Byte) : MemBlind (handleMul a b) :=
  (memBlind_aluBinary _ a b).andThen fun _ _ _ => rfl

theorem memBlind_handleHlt : MemBlind handleHlt := fun _ _ => rfl

theorem memBlind_handleInvalid (op : Byte) : MemBlind (handleInvalid op) := fun _ _ => rfl

/-- The end of a step hands memory on (R77, R128). -/
theorem finish_withMem {r : Attempt PcWord} {t : State} (m : Memory) (h : finish r = .next t) :
    finish (r.withMem m) = .next { t with mem := m } := by
  cases r with
  | done adv s =>
    cases h
    simp only [Attempt.withMem, finish_done, advancePc]
    split <;> rfl
  | raised e s => cases h; rfl

/-- The end of a handler that does not look at memory. -/
theorem MemBlind.finish {f : State → Attempt PcWord} (hf : MemBlind f) {s t : State} (m : Memory)
    (h : finish (f s) = .next t) : finish (f { s with mem := m }) = .next { t with mem := m } := by
  rw [hf m s]
  exact finish_withMem m h

/-- No instruction looks at memory (R48). -/
theorem exec_withMem {i : Instr} {s t : State} (m : Memory) (h : exec i s = .next t) :
    exec i { s with mem := m } = .next { t with mem := m } := by
  cases i with
  | ldi a imm => exact (memBlind_handleLdi a imm).finish m h
  | prn a => exact (memBlind_handlePrn a).finish m h
  | mul a b => exact (memBlind_handleMul a b).finish m h
  | hlt => exact memBlind_handleHlt.finish m h

/-- Nor does the end of a run at an invalid opcode (R101). -/
theorem execInvalid_withMem {op : Byte} {s t : State} (m : Memory) (h : execInvalid op s = .next t) :
    execInvalid op { s with mem := m } = .next { t with mem := m } :=
  (memBlind_handleInvalid op).finish m h

/-! ### Operations that look at the three cells from pc on -/

/-- The memory `m` holds what the state's memory holds in those of the cells pc, pc+1 and pc+2 that exist. -/
def AgreesAtPc (m : Memory) (s : State) : Prop :=
  ∀ k, k < 3 → s.pc.toNat + k < 256 → readCell m (s.pc.toNat + k) = readCell s.mem (s.pc.toNat + k)

/-- The three reads look at no other cell (R48, R73). -/
theorem readThree_withMem {m : Memory} {s : State} (h : AgreesAtPc m s) :
    readThree { s with mem := m } = (readThree s).withMem m := by
  rcases (by omega : s.pc.toNat ≤ 253 ∨ s.pc.toNat = 254 ∨ s.pc.toNat = 255 ∨ 256 ≤ s.pc.toNat) with
    hpc | hpc | hpc | hpc
  · have hcell : ∀ k, k < 3 → cellAt { s with mem := m } k = cellAt s k := fun k hk => h k hk (by omega)
    rw [readThree_of_le hpc, readThree_of_le (s := { s with mem := m }) hpc, afterFetch, hcell 0 (by omega),
      hcell 1 (by omega), hcell 2 (by omega)]
    rfl
  · have hlast : readCell m 255 = readCell s.mem 255 := by simpa [hpc] using h 1 (by omega) (by omega)
    rw [readThree_at_254 hpc, readThree_at_254 (s := { s with mem := m }) hpc, hlast]
    rfl
  · have hlast : readCell m 255 = readCell s.mem 255 := by simpa [hpc] using h 0 (by omega) (by omega)
    rw [readThree_at_255 hpc, readThree_at_255 (s := { s with mem := m }) hpc, hlast]
    rfl
  · rw [readThree_of_ge hpc, readThree_of_ge (s := { s with mem := m }) hpc]
    rfl

theorem runningStep_withMem {m : Memory} {s t : State} (h : AgreesAtPc m s) (hs : runningStep s = .next t) :
    runningStep { s with mem := m } = .next { t with mem := m } := by
  unfold runningStep at hs ⊢
  rw [readThree_withMem h]
  cases hr : readThree s with
  | raised e s1 => rw [hr] at hs; cases hs; rfl
  | done v s1 =>
    obtain ⟨op, a, b⟩ := v
    rw [hr] at hs
    simp only [Attempt.withMem] at hs ⊢
    cases hd : decode op a b with
    | instr i => rw [hd] at hs; exact exec_withMem m hs
    | invalidOpcode o => rw [hd] at hs; exact execInvalid_withMem m hs

/-- A step looks at no other cell (R48). -/
theorem step_withMem {m : Memory} {s t : State} (h : AgreesAtPc m s) (hs : step s = .next t) :
    step { s with mem := m } = .next { t with mem := m } := by
  rcases step_cases hs with ⟨hrun, rfl⟩ | ⟨hrun, -⟩
  · exact step_of_halted (s := { t with mem := m }) hrun
  · rw [step_of_running hrun] at hs
    rw [step_of_running (s := { s with mem := m }) hrun]
    exact runningStep_withMem h hs

/-- A trace looks at no other cell (R48, R110). -/
theorem trace_withMem {m : Memory} {s t : State} (h : AgreesAtPc m s) (hs : trace s = .next t) :
    trace { s with mem := m } = .next { t with mem := m } := by
  obtain ⟨hrun, -⟩ := trace_next hs
  rw [trace, if_pos hrun] at hs
  rw [trace, if_pos (show ({ s with mem := m } : State).run = .running from hrun), readThree_withMem h]
  cases hr : readThree s with
  | raised e s1 => rw [hr] at hs; cases hs; rfl
  | done v s1 => rw [hr] at hs; cases hs; rfl

end Sys2Proof.Machine
end

section
/-! PROOF. The statements about memory (20_memory.md). -/

namespace Sys2Proof.Machine

/-- Settles O6: both branches of the arbiter's read; the second read finds the shadow registers as it would set them. -/
theorem memoryReadContract : Obligations.MemoryReadContract := by
  intro a s
  refine ⟨fun ha => ?_, fun ha => memRead_of_ge ha s⟩
  exact ⟨_, memRead_of_lt ha s, toNat_ofNat_of_lt ha, rfl, rfl, memRead_of_shadowed ha rfl rfl⟩

/-- Settles O7: both branches of the arbiter's write, and no case of a step writes memory. -/
theorem memoryWriteContract : Obligations.MemoryWriteContract := by
  refine ⟨fun a v s hm => ⟨fun ha => ?_, fun ha => memWrite_of_ge ha v s⟩, fun s t h => step_mem h⟩
  have hsame : readCell (writeCell s.mem a v) a = v := readCell_writeCell_same hm a v
  refine ⟨_, memWrite_of_lt ha v s, toNat_ofNat_of_lt ha, rfl, rfl, hsame,
    fun c hc => readCell_writeCell_other s.mem v hc, ?_⟩
  rw [memRead_of_shadowed ha rfl hsame.symm, hsame]

/-- Settles O9: an image is placed byte by byte, every other operation hands memory on, no handler looks at it, and
the three reads from pc on are the only ones a step or a trace makes. -/
theorem onlyResetAndLoaderWriteMemory : Obligations.OnlyResetAndLoaderWriteMemory := by
  refine ⟨fun p a => readCell_nil a, fun image p hlen => ?_, fun s t h a => by rw [step_mem h],
    fun s t h a => by rw [trace_mem h], fun i v s t h a => by rw [preload_mem h],
    fun i s t m h => exec_withMem m h, fun s t m h => ⟨step_withMem h, trace_withMem h⟩⟩
  refine ⟨_, load_of_le (construct_beforeRun p) hlen, fun k hk => ?_⟩
  simpa using readCell_placeBytes image wf_nil (k := 0) (j := k) (by omega)

end Sys2Proof.Machine
end

section
/-! PROOF. The statements about the dispatch table and the opcodes outside it (30_encoding.md). -/

namespace Sys2Proof.Machine

/-- The bytes the lookup finds are the four opcodes of the table (R54, R57). -/
theorem tableOpcodes_eq :
    ((List.range 256).filter fun n => !(lookupOpcode (BitVec.ofNat 8 n) == none)) = [0x01, 0x47, 0x82, 0xA2] := by
  decide

/-- The other bytes are 252: all 256 less the four of the table (R57). -/
theorem invalidOpcodes_length :
    ((List.range 256).filter fun n => lookupOpcode (BitVec.ofNat 8 n) == none).length = 252 := by
  have hsplit := (List.range 256).length_eq_length_filter_add fun n => lookupOpcode (BitVec.ofNat 8 n) == none
  rw [tableOpcodes_eq, List.length_range] at hsplit
  exact Nat.add_right_cancel hsplit.symm

/-- The whole step that meets an opcode outside the table: the fetch, then the clean halt (R76, R101). -/
theorem step_of_invalidOpcode {s : State} (hrun : s.run = .running) (hpc : s.pc.toNat ≤ 253)
    (hop : lookupOpcode (cellAt s 0) = none) :
    step s = .next (halt .invalidInstruction (.invalidInstructionReport (cellAt s 0)) (afterFetch s)) := by
  have hdecode : decode (cellAt s 0) (cellAt s 1) (cellAt s 2) = .invalidOpcode (cellAt s 0) :=
    (decode_invalid_iff _ _ _ _).mpr ⟨hop, rfl⟩
  simp only [step_of_running hrun, runningStep, readThree_of_le hpc, hdecode, execInvalid, handleInvalid,
    finish_done, advancePc_halt]

/-- Settles O3: the table is a constant, and each mnemonic is looked up in it. -/
theorem dispatchTableHasTheFourRows : Obligations.DispatchTableHasTheFourRows :=
  ⟨rfl, rfl, rfl, rfl, rfl⟩

/-- Settles O5: the lookup misses all bytes but the table's four, and the step that misses is the clean halt, which
records no fault and appends the report. -/
theorem everyOtherOpcodeHaltsTheRun : Obligations.EveryOtherOpcodeHaltsTheRun := by
  refine ⟨invalidOpcodes_length, lookupOpcode_eq_none_iff, fun s hrun hpc hhlt hprn hldi hmul => ?_⟩
  have hop : lookupOpcode (cellAt s 0) = none := (lookupOpcode_eq_none_iff _).mpr ⟨hhlt, hprn, hldi, hmul⟩
  exact ⟨_, step_of_invalidOpcode hrun hpc hop, halt_run .., halt_cause .., halt_fault .., cellAt s 0, halt_out ..⟩

end Sys2Proof.Machine
end

section
/-! PROOF. The statement about the advance of pc (40_step_fetch_decode_dispatch.md). -/

namespace Sys2Proof.Machine

/-- An instruction's advance at 253 or below is a sum of numbers: it does not wrap in pc's 9 bits (R14, R77). -/
theorem advancePc_pc_toNat {s : State} {adv : PcWord} (hrun : s.run = .running) (hpc : s.pc.toNat ≤ 253)
    (hadv : adv.toNat ≤ 3) : (advancePc adv s).pc.toNat = s.pc.toNat + adv.toNat := by
  rw [advancePc_of_running hrun]
  exact BitVec.toNat_add_of_lt (by omega)

/-- Settles O28: an instruction runs only where pc is at most 253, so no advance wraps; a failing read or a missing
register aborts, and an opcode outside the table is none of the four. -/
theorem pcAdvanceLaw : Obligations.PcAdvanceLaw := by
  intro s t hrun hstep hlive
  rcases step_cases hstep with ⟨hhalted, -⟩ | ⟨-, hcase⟩
  · exact absurd (hrun.symm.trans hhalted) (by decide)
  cases hcase with
  | outOfRange | badFirst | badSecond => exact absurd (abortRun_run ..) hlive
  | invalid _ hop =>
    obtain ⟨hhlt, hprn, hldi, hmul⟩ := (lookupOpcode_eq_none_iff _).mp hop
    exact ⟨fun h => absurd h hldi, fun h => absurd h hprn, fun h => absurd h hmul, fun h => absurd h hhlt⟩
  | ldi hpc hop | mul hpc hop =>
    simpa [hop] using advancePc_pc_toNat (s := { afterFetch s with x := _ }) (adv := 3) hrun hpc (by decide)
  | prn hpc hop => simpa [hop] using advancePc_pc_toNat (s := emit _ (afterFetch s)) (adv := 2) hrun hpc (by decide)
  | hlt _ hop => simp [hop]

end Sys2Proof.Machine
end

section
/-! PROOF. The statement about LDI as one step (41_ldi.md). -/

namespace Sys2Proof.Machine

/-- The end of a step writes pc alone (R77). -/
theorem advancePc_frame (adv : PcWord) (s : State) : advancePc adv s = { s with pc := (advancePc adv s).pc } := by
  unfold advancePc; split <;> rfl

/-- A step whose bytes decode to an instruction: the fetch, then that instruction (R75, R80). -/
theorem step_of_instr {s : State} {i : Instr} (hrun : s.run = .running) (hpc : s.pc.toNat ≤ 253)
    (hdecode : decode (cellAt s 0) (cellAt s 1) (cellAt s 2) = .instr i) : step s = exec i (afterFetch s) := by
  simp only [step_of_running hrun, runningStep, readThree_of_le hpc, hdecode]

/-- A step whose fetch fails: only the shadow registers, the run and its record can have changed (R73, R79). -/
theorem step_of_gt {s : State} (hrun : s.run = .running) (hpc : 253 < s.pc.toNat) :
    ∃ a m d, step s = .next (abortRun (.outOfRange a) { s with mar := m, mdr := d }) := by
  obtain ⟨a, m, d, -, -, hread⟩ := readThree_of_gt hpc
  exact ⟨a, m, d, by simp only [step_of_running hrun, runningStep, hread]⟩

/-- A step at an LDI opcode: the fetch, then LDI's handler with the two bytes after the opcode (R85). -/
theorem step_of_ldi {s : State} (hrun : s.run = .running) (hpc : s.pc.toNat ≤ 253) (hop : cellAt s 0 = 0x82) :
    step s = finish (handleLdi (cellAt s 1) (cellAt s 2) (afterFetch s)) :=
  step_of_instr hrun hpc (i := .ldi (cellAt s 1) (cellAt s 2)) (by rw [decode_eq, if_pos hop])

/-- Settles O23: up to 253 the step is LDI's handler after the fetch, which turns on whether the register exists;
LDI leaves 253 for 256, where, as at 254 and 255, the fetch fails. -/
theorem ldiStep : Obligations.LdiStep := by
  intro s hrun hop
  refine ⟨fun hpc ha => ?_, fun hpc ha => ?_, fun htop => ?_⟩
  · have hstep := step_of_ldi hrun hpc hop
    rw [handleLdi_of_lt ha, finish_done] at hstep
    have hadvance := advancePc_pc_toNat (s := { afterFetch s with x := s.x.set _ (cellAt s 2).toNat ha }) (adv := 3)
      hrun hpc (by decide)
    have hmar : (BitVec.ofNat 8 (s.pc.toNat + 2)).toNat = s.pc.toNat + 2 := toNat_ofNat_of_lt (by omega)
    refine ⟨_, hstep, advancePc_x .., hadvance, ?_, advancePc_mdr .., ?_, fun hlast => ?_⟩
    · simpa using hmar
    · simpa using advancePc_frame ..
    · have h256 := hadvance.trans (congrArg (· + 3) hlast)
      obtain ⟨a, m, d, hnext⟩ := step_of_gt (by simpa using hrun) ((by decide : 253 < 256).trans_eq h256.symm)
      exact ⟨h256, _, hnext, abortRun_run ..⟩
  · have hstep := step_of_ldi hrun hpc hop
    rw [handleLdi_of_ge ha, finish_raised] at hstep
    exact ⟨_, hstep, rfl, rfl, rfl, rfl, rfl⟩
  · obtain ⟨a, m, d, hstep⟩ := step_of_gt hrun (by omega)
    exact ⟨_, hstep, rfl, rfl⟩

end Sys2Proof.Machine
end

section
/-! PROOF. The statement about PRN as one step (42_prn.md). -/

namespace Sys2Proof.Machine

/-- A step at a PRN opcode: the fetch, then PRN's handler with the byte after the opcode; the third byte only reaches
MDR (R88). -/
theorem step_of_prn {s : State} (hrun : s.run = .running) (hpc : s.pc.toNat ≤ 253) (hop : cellAt s 0 = 0x47) :
    step s = finish (handlePrn (cellAt s 1) (afterFetch s)) :=
  step_of_instr hrun hpc (i := .prn (cellAt s 1)) (by rw [decode_eq, hop]; rfl)

/-- Settles O24: up to 253 the step is PRN's handler after the fetch, which turns on whether the register exists; at
254 and 255 the fetch fails. -/
theorem prnStep : Obligations.PrnStep := by
  intro s hrun hop
  refine ⟨fun hpc ha => ?_, fun hpc ha => ?_, fun htop => ?_⟩
  · have hstep := step_of_prn hrun hpc hop
    rw [handlePrn_of_lt ha, finish_done] at hstep
    have hadvance := advancePc_pc_toNat (s := emit (.print s.x[(cellAt s 1).toNat]) (afterFetch s)) (adv := 2)
      hrun hpc (by decide)
    have hmar : (BitVec.ofNat 8 (s.pc.toNat + 2)).toNat = s.pc.toNat + 2 := toNat_ofNat_of_lt (by omega)
    refine ⟨_, hstep, advancePc_out .., hadvance, ?_, advancePc_mdr .., ?_⟩
    · simpa using hmar
    · simp only [advancePc_out, advancePc_mar, advancePc_mdr]
      exact advancePc_frame ..
  · have hstep := step_of_prn hrun hpc hop
    rw [handlePrn_of_ge ha, finish_raised] at hstep
    exact ⟨_, hstep, rfl, rfl, rfl, rfl, rfl⟩
  · obtain ⟨a, m, d, hstep⟩ := step_of_gt hrun (by omega)
    exact ⟨_, hstep, rfl, rfl⟩

end Sys2Proof.Machine
end

section
/-! PROOF. The statement about HLT as one step (44_hlt_and_invalid.md). -/

namespace Sys2Proof.Machine

/-- A run that has ended takes no further step, whatever its length (R78, R112). -/
theorem runFor_of_ended {s : State} (h : s.run ≠ .running) (n : Nat) : runFor n s = s := by
  cases n with
  | zero => rfl
  | succ n => exact if_neg h

/-- The whole step at an HLT opcode: the fetch, then the clean halt; neither byte after the opcode is an operand
(R100). -/
theorem step_of_hlt {s : State} (hrun : s.run = .running) (hpc : s.pc.toNat ≤ 253) (hop : cellAt s 0 = 0x01) :
    step s = .next (halt .hlt .haltNotice (afterFetch s)) := by
  have hdecode : decode (cellAt s 0) (cellAt s 1) (cellAt s 2) = .instr .hlt := by rw [decode_eq, hop]; rfl
  simp only [step_of_instr hrun hpc hdecode, exec, execHlt, handleHlt, finish_done, advancePc_halt]

/-- Settles O26: up to 253 the step is the clean halt after the fetch, and a run from there is over; at 254 and 255 the
fetch fails, so the handler that emits the notice is not reached. -/
theorem hltStep : Obligations.HltStep := by
  intro s hrun hop
  refine ⟨fun hpc => ?_, fun htop => ?_⟩
  · have hmar : (BitVec.ofNat 8 (s.pc.toNat + 2)).toNat = s.pc.toNat + 2 := toNat_ofNat_of_lt (by omega)
    have hended : (halt .hlt .haltNotice (afterFetch s)).run ≠ .running := by simp
    exact ⟨_, step_of_hlt hrun hpc hop, halt_out .., halt_run .., halt_cause .., halt_pc .., hmar, halt_mdr .., rfl,
      runFor_of_ended hended⟩
  · obtain ⟨a, m, d, hstep⟩ := step_of_gt hrun (by omega)
    exact ⟨_, hstep, abortRun_run .., abortRun_out ..⟩

end Sys2Proof.Machine
end

section
/-! PROOF. The statement about OutOfRange (60_exceptions.md). -/

namespace Sys2Proof.Machine

/-- The end of a handler that succeeded and kept the record of errors keeps it too (R77). -/
theorem finish_done_fault {r : Attempt PcWord} {adv : PcWord} {s s1 t : State} (hr : r = .done adv s1)
    (hkeep : s1.fault = s.fault) (h : finish r = .next t) : t.fault = s.fault := by
  subst hr
  cases h
  exact (advancePc_fault adv s1).trans hkeep

/-- A raise by a handler is what the run then records (R128). -/
theorem finish_raised_fault {r : Attempt PcWord} {e : Raised} {s t : State} (hr : r = .raised e s)
    (h : finish r = .next t) : t.fault = some e := by
  subst hr
  cases h
  rfl

/-- An instruction keeps the record of errors, or records a register that does not exist: no handler accesses memory
(R121, R122). -/
theorem exec_fault {i : Instr} {s t : State} (h : exec i s = .next t) :
    t.fault = s.fault ∨ ∃ r, t.fault = some (.invalidRegister r) := by
  cases i with
  | ldi a imm =>
    rcases Nat.lt_or_ge a.toNat 8 with ha | ha
    · exact .inl (finish_done_fault (handleLdi_of_lt ha imm s) rfl h)
    · exact .inr ⟨a, finish_raised_fault (handleLdi_of_ge ha imm s) h⟩
  | prn a =>
    rcases Nat.lt_or_ge a.toNat 8 with ha | ha
    · exact .inl (finish_done_fault (handlePrn_of_lt ha s) rfl h)
    · exact .inr ⟨a, finish_raised_fault (handlePrn_of_ge ha s) h⟩
  | mul a b =>
    rcases Nat.lt_or_ge a.toNat 8 with ha | ha
    · rcases Nat.lt_or_ge b.toNat 8 with hb | hb
      · exact .inl (finish_done_fault (handleMul_of_lt ha hb s) rfl h)
      · exact .inr ⟨b, finish_raised_fault (handleMul_of_ge_right ha hb s) h⟩
    · exact .inr ⟨a, finish_raised_fault (handleMul_of_ge_left b ha s) h⟩
  | hlt => exact .inl (finish_done_fault (r := handleHlt s) rfl (halt_fault ..) h)

/-- Within the invariant a running engine has recorded no error (R21). -/
theorem StateInv.fault_of_running {s : State} (hinv : StateInv s) (hrun : s.run = .running) : s.fault = none := by
  by_contra hfault
  exact absurd (hrun.symm.trans (hinv.fault_iff.mp hfault)) (by decide)

/-- A step that newly records OutOfRange is one whose fetch failed (R73, R121). -/
theorem step_outOfRange {s t : State} {a : Nat} (hfault : s.fault = none) (hstep : step s = .next t)
    (ht : t.fault = some (.outOfRange a)) :
    253 < s.pc.toNat ∧ (s.pc.toNat ≤ 256 → a = 256) ∧ t.run = .aborted := by
  rcases step_cases hstep with ⟨-, rfl⟩ | ⟨-, hcase⟩
  · simp [hfault] at ht
  cases hcase with
  | outOfRange a' m d hpc _ ha' => cases ht; exact ⟨hpc, ha', abortRun_run ..⟩
  | badFirst | badSecond => simp at ht
  | invalid | ldi | prn | mul | hlt => simp [hfault] at ht

/-- A trace that newly records OutOfRange is one of whose reads failed (R110, R121). -/
theorem trace_outOfRange {s t : State} {a : Nat} (hfault : s.fault = none) (htrace : trace s = .next t)
    (ht : t.fault = some (.outOfRange a)) :
    253 < s.pc.toNat ∧ (s.pc.toNat ≤ 256 → a = 256) ∧ t.run = .aborted := by
  obtain ⟨-, ⟨-, rfl⟩ | ⟨a', m, d, hpc, -, ha', rfl⟩⟩ := trace_next htrace
  · simp [hfault] at ht
  · cases ht
    exact ⟨hpc, ha', abortRun_run ..⟩

/-- Settles O37: outside the cells the arbiter raises; only the reads from pc on reach it in a step or a trace, and they
fail above 253 alone, where pc of the invariant is at most 256; a handler raises nothing but InvalidRegister. -/
theorem outOfRangeArisesOnlyAtTheTopOfMemory : Obligations.OutOfRangeArisesOnlyAtTheTopOfMemory := by
  refine ⟨fun a v s ha => ⟨memRead_of_ge ha s, memWrite_of_ge ha v s⟩, fun s t a hinv hrun hnext ht => ?_,
    fun i s t a hfault hexec ht => ?_⟩
  · have hnone : s.fault = none := hinv.fault_of_running hrun
    have hle : s.pc.toNat ≤ 256 := hinv.pc_le
    obtain ⟨hpc, ha, habort⟩ : 253 < s.pc.toNat ∧ (s.pc.toNat ≤ 256 → a = 256) ∧ t.run = .aborted :=
      hnext.elim (step_outOfRange hnone · ht) (trace_outOfRange hnone · ht)
    exact ⟨ha hle, by omega, habort⟩
  · rcases exec_fault hexec with hsame | ⟨r, hreg⟩
    · simp [hsame, hfault] at ht
    · simp [hreg] at ht

end Sys2Proof.Machine
end

section
/-! PROOF. The statement about the read-ahead at the top of memory (70_reset_and_hazards.md). -/

namespace Sys2Proof.Machine

/-- A step whose fetch fails does not halt the run: HLT is not reached (R79, R145). -/
theorem pc_le_of_step_halted {s t : State} (hrun : s.run = .running) (hstep : step s = .next t)
    (hhalted : t.run = .halted) : s.pc.toNat ≤ 253 := by
  by_contra htop
  obtain ⟨a, m, d, habort⟩ := step_of_gt hrun (by omega)
  cases hstep.symm.trans habort
  simp at hhalted

/-- Settles O29: from 254 to 256 the fetch fails before the opcode is looked at, and its record names 256; a step that
newly records OutOfRange had its pc above 253. -/
theorem instructionsExecuteOnlyAt253OrBelow : Obligations.InstructionsExecuteOnlyAt253OrBelow := by
  intro s hrun hfault hle
  refine ⟨fun htop => ?_, fun hpc t hstep a ht => ?_, fun t => pc_le_of_step_halted hrun⟩
  · obtain ⟨a, m, d, hstep⟩ := step_of_gt hrun (by omega)
    obtain ⟨-, ha, habort⟩ := step_outOfRange hfault hstep (abortRun_fault ..)
    exact ⟨_, hstep, habort, by rw [abortRun_fault, ha hle]⟩
  · obtain ⟨habove, -, -⟩ := step_outOfRange hfault hstep ht
    omega

end Sys2Proof.Machine
end

section
/-! PROOF. The statements that encoding and decoding agree (30_encoding.md). -/

namespace Sys2Proof.Machine

/-- Settles O1: the decoder compares the first byte with the four opcodes, and keeps of the other two the bytes the
format owns. -/
theorem decodeReadsExactlyWhatEncodeWrites : Obligations.DecodeReadsExactlyWhatEncodeWrites := by
  intro i op a b
  rw [decode_eq]
  cases i with
  | ldi | prn | mul | hlt =>
    simp only [encode, List.cons_prefix_cons, List.nil_prefix, and_true]
    split_ifs <;> simp_all [eq_comm]

/-- Bytes can follow an encoding up to the three that are fetched (R64). -/
theorem exists_fetched (i : Instr) : ∃ op a b, encode i <+: [op, a, b] := by
  cases i with
  | ldi a imm => exact ⟨0x82, a, imm, List.prefix_rfl⟩
  | prn a => exact ⟨0x47, a, 0, by simp [encode]⟩
  | mul a b => exact ⟨0xA2, a, b, List.prefix_rfl⟩
  | hlt => exact ⟨0x01, 0, 0, by simp [encode]⟩

/-- Settles O2: fetched bytes that begin with the one encoding begin with the other too, and they decode to one
instruction only. -/
theorem noEncodingBeginsAnother : Obligations.NoEncodingBeginsAnother := by
  intro i j hij
  obtain ⟨op, a, b, hj⟩ := exists_fetched j
  have hdecodeI := (decodeReadsExactlyWhatEncodeWrites i op a b).mpr (hij.trans hj)
  have hdecodeJ := (decodeReadsExactlyWhatEncodeWrites j op a b).mpr hj
  exact Decoded.instr.inj (hdecodeI.symm.trans hdecodeJ)

/-- Settles O4: each word is looked up in the constant table. -/
theorem writtenOutWordsDecode : Obligations.WrittenOutWordsDecode := by
  unfold Obligations.WrittenOutWordsDecode
  decide

end Sys2Proof.Machine
end

section
/-! PROOF. One step of a running engine as an equation, and runs of several steps (40_step_fetch_decode_dispatch.md,
45_host_interface.md): what the statements over steps and runs rest on. -/

namespace Sys2Proof.Machine

/-- A step at a MUL opcode: the fetch, then MUL's handler with the two bytes after the opcode (R96). -/
theorem step_of_mul {s : State} (hrun : s.run = .running) (hpc : s.pc.toNat ≤ 253) (hop : cellAt s 0 = 0xA2) :
    step s = finish (handleMul (cellAt s 1) (cellAt s 2) (afterFetch s)) :=
  step_of_instr hrun hpc (i := .mul (cellAt s 1) (cellAt s 2)) (by rw [decode_eq, hop]; rfl)

/-- The state in which a fetch or a trace at 254 or above is abandoned: the shadow registers hold the last cell, where
a read of it came before the failing one (R73, D15). -/
def afterFailedFetch (s : State) : State :=
  { s with
    mar := if s.pc.toNat ≤ 255 then 255 else s.mar
    mdr := if s.pc.toNat ≤ 255 then readCell s.mem 255 else s.mdr }

/-- The first address from pc on that has no cell (R34). -/
def failingAddress (s : State) : Nat := max 256 s.pc.toNat

/-- The three reads where one fails, in one equation (R73). -/
theorem readThree_of_top {s : State} (h : 253 < s.pc.toNat) :
    readThree s = .raised (.outOfRange (failingAddress s)) (afterFailedFetch s) := by
  rcases (by omega : s.pc.toNat = 254 ∨ s.pc.toNat = 255 ∨ 256 ≤ s.pc.toNat) with hpc | hpc | hpc
  · simp [readThree_at_254 hpc, failingAddress, afterFailedFetch, hpc]
  · simp [readThree_at_255 hpc, failingAddress, afterFailedFetch, hpc]
  · have hlast : ¬ s.pc.toNat ≤ 255 := by omega
    simp [readThree_of_ge hpc, failingAddress, afterFailedFetch, hpc, hlast]

/-- A step whose fetch fails (R73, R79). -/
theorem step_of_top {s : State} (hrun : s.run = .running) (hpc : 253 < s.pc.toNat) :
    step s = .next (abortRun (.outOfRange (failingAddress s)) (afterFailedFetch s)) := by
  simp only [step_of_running hrun, runningStep, readThree_of_top hpc]

/-- A running engine has a step, by one of its cases (R80). -/
theorem exists_step {s : State} (hrun : s.run = .running) : ∃ t, step s = .next t ∧ StepCase s t := by
  rw [step_of_running hrun]
  exact runningStep_case s

/-- The cases of a step of a running engine. -/
theorem stepCase_of_step {s t : State} (hrun : s.run = .running) (hstep : step s = .next t) : StepCase s t := by
  obtain ⟨u, hu, hcase⟩ := exists_step hrun
  cases hstep.symm.trans hu
  exact hcase

/-- Up to 253 a case of a step says which step is made. -/
theorem StepCase.step_eq {s t : State} (hcase : StepCase s t) (hrun : s.run = .running) (hpc : s.pc.toNat ≤ 253) :
    step s = .next t := by
  cases hcase with
  | outOfRange _ _ _ htop => omega
  | invalid _ hop => exact step_of_invalidOpcode hrun hpc hop
  | ldi _ hop ha => rw [step_of_ldi hrun hpc hop, handleLdi_of_lt ha]; rfl
  | prn _ hop ha => rw [step_of_prn hrun hpc hop, handlePrn_of_lt ha]; rfl
  | mul _ hop ha hb => rw [step_of_mul hrun hpc hop, handleMul_of_lt ha hb]; rfl
  | hlt _ hop => exact step_of_hlt hrun hpc hop
  | badFirst _ hop ha =>
    rcases hop with hop | hop | hop
    · rw [step_of_ldi hrun hpc hop, handleLdi_of_ge ha]; rfl
    · rw [step_of_prn hrun hpc hop, handlePrn_of_ge ha]; rfl
    · rw [step_of_mul hrun hpc hop, handleMul_of_ge_left _ ha]; rfl
  | badSecond _ hop ha hb => rw [step_of_mul hrun hpc hop, handleMul_of_ge_right ha hb]; rfl

/-- A step that leaves the engine running was made at 253 or below, keeps `cause` and moves pc by 2 or 3 (R77, R78). -/
theorem StepCase.of_running {s t : State} (hcase : StepCase s t) (hrun : s.run = .running) (hlive : t.run = .running) :
    s.pc.toNat ≤ 253 ∧ t.cause = s.cause ∧ (t.pc.toNat = s.pc.toNat + 2 ∨ t.pc.toNat = s.pc.toNat + 3) := by
  cases hcase with
  | outOfRange | badFirst | badSecond | invalid | hlt => simp at hlive
  | ldi hpc | mul hpc =>
    exact ⟨hpc, advancePc_cause .., .inr (advancePc_pc_toNat hrun hpc (adv := 3) (by decide))⟩
  | prn hpc => exact ⟨hpc, advancePc_cause .., .inl (advancePc_pc_toNat hrun hpc (adv := 2) (by decide))⟩

/-! ### Runs -/

theorem runFor_zero (s : State) : runFor 0 s = s := rfl

/-- A run of one step more begins with a step (R112). -/
theorem runFor_succ {s t : State} (hrun : s.run = .running) (hstep : step s = .next t) (n : Nat) :
    runFor (n + 1) s = runFor n t := by
  rw [runFor, if_pos hrun, hstep]

/-- A run can be interrupted and taken up again (R112). -/
theorem runFor_add (m n : Nat) : ∀ s : State, runFor (m + n) s = runFor n (runFor m s) := by
  induction m with
  | zero => intro s; rw [Nat.zero_add, runFor_zero]
  | succ m ih =>
    intro s
    by_cases hrun : s.run = .running
    · obtain ⟨t, hstep, -⟩ := exists_step hrun
      rw [Nat.add_right_comm, runFor_succ hrun hstep, runFor_succ hrun hstep, ih]
    · simp only [runFor_of_ended hrun]

/-- What a step keeps, a run keeps. -/
theorem runFor_induction {P : State → Prop} (hkeep : ∀ s t, P s → step s = .next t → P t) (n : Nat) :
    ∀ s, P s → P (runFor n s) := by
  induction n with
  | zero => exact fun s hs => hs
  | succ n ih =>
    intro s hs
    by_cases hrun : s.run = .running
    · obtain ⟨t, hstep, -⟩ := exists_step hrun
      rw [runFor_succ hrun hstep]
      exact ih t (hkeep s t hs hstep)
    · rwa [runFor_of_ended hrun]

end Sys2Proof.Machine
end

section
/-! PROOF. The statement that every run ends (40_step_fetch_decode_dispatch.md, 70_reset_and_hazards.md). -/

namespace Sys2Proof.Machine

/-- A run long enough to carry pc past 253 by twos has ended (R78). -/
theorem runFor_ends (n : Nat) : ∀ {s : State}, 254 ≤ s.pc.toNat + 2 * n → (runFor (n + 1) s).run ≠ .running := by
  induction n with
  | zero =>
    intro s hpc
    by_cases hrun : s.run = .running
    · rw [runFor_succ hrun (step_of_top hrun (by omega)), runFor_zero]
      simp
    · rwa [runFor_of_ended hrun]
  | succ n ih =>
    intro s hpc
    by_cases hrun : s.run = .running
    · obtain ⟨t, hstep, hcase⟩ := exists_step hrun
      rw [runFor_succ hrun hstep]
      by_cases hlive : t.run = .running
      · obtain ⟨-, -, hmoved⟩ := hcase.of_running hrun hlive
        exact ih (by omega)
      · rwa [runFor_of_ended hlive]
    · rwa [runFor_of_ended hrun]

/-- Settles O56: a step that leaves the engine running adds at least 2 to a pc of at most 253, so the 128th step is the
last from any pc; what has ended takes no further step. -/
theorem everyRunEndsWithin128Steps : Obligations.EveryRunEndsWithin128Steps := by
  intro s
  have hended : (runFor 128 s).run ≠ .running := runFor_ends 127 (by omega)
  refine ⟨hended, fun n hn => ?_⟩
  obtain ⟨k, rfl⟩ := Nat.exists_eq_add_of_le hn
  rw [runFor_add, runFor_of_ended hended]

end Sys2Proof.Machine
end

section
/-! PROOF. The invariant of every state a run reaches (Safety.lean): each named update keeps it, hence every step and
every operation of the host does, and a run within it ends in one of three ways. -/

namespace Sys2Proof.Machine

namespace StateInv

variable {s : State}

/-- Within the invariant a running engine has no cause recorded (R20). -/
theorem cause_of_running (hinv : StateInv s) (hrun : s.run = .running) : s.cause = .none := by
  by_contra hcause
  exact absurd (hrun.symm.trans (hinv.cause_iff.mp hcause)) (by decide)

/-- The invariant does not speak of the shadow registers. -/
theorem withShadows (hinv : StateInv s) (m d : Byte) : StateInv { s with mar := m, mdr := d } :=
  { hinv with }

theorem afterFetch (hinv : StateInv s) : StateInv (afterFetch s) := hinv.withShadows _ _

theorem withMem (hinv : StateInv s) {m : Memory} (hm : m.wf) : StateInv { s with mem := m } :=
  { hinv with mem_wf := hm }

theorem setReg (hinv : StateInv s) {r v : Nat} (h : r < 8) (hv : isRegval s.regw v = true) :
    StateInv { s with x := s.x.set r v h } :=
  { hinv with
    regs_regval := fun r' h' => by
      rw [Vector.getElem_set]
      split
      · exact hv
      · exact hinv.regs_regval r' h' }

/-- The advance of an instruction at 253 or below (R77). -/
theorem advancePc (hinv : StateInv s) {adv : PcWord} (hrun : s.run = .running) (hpc : s.pc.toNat ≤ 253)
    (hadv : adv.toNat ≤ 3) : StateInv (advancePc adv s) := by
  have hmoved : (s.pc + adv).toNat = s.pc.toNat + adv.toNat := BitVec.toNat_add_of_lt (by omega)
  rw [advancePc_of_running hrun]
  exact { hinv with pc_le := by simp only [hmoved]; omega }

/-- An event that ends no run: a printed value or a trace (R23). -/
theorem emit (hinv : StateInv s) {e : Event} (hprint : ∀ v, e = .print v → isRegval s.regw v = true)
    (hnotice : e ≠ .haltNotice) (hreport : ∀ op, e ≠ .invalidInstructionReport op) : StateInv (emit e s) :=
  { hinv with
    printed_regval := fun v hv => by
      rcases List.mem_append.mp hv with hv | hv
      · exact hinv.printed_regval v hv
      · exact hprint v (List.mem_singleton.mp hv).symm
    notice_iff := by simpa [hnotice.symm] using hinv.notice_iff
    report_invalid := fun op hop => by
      rcases List.mem_append.mp hop with hop | hop
      · exact hinv.report_invalid op hop
      · exact absurd (List.mem_singleton.mp hop).symm (hreport op) }

/-- The entry to Aborted with an error a program can raise (R121, R122, R128). -/
theorem abortRun (hinv : StateInv s) (hrun : s.run = .running) {e : Raised}
    (he : e = .outOfRange 256 ∨ ∃ i : Byte, 8 ≤ i.toNat ∧ e = .invalidRegister i) : StateInv (abortRun e s) :=
  { hinv with
    cause_iff := by simp [hinv.cause_of_running hrun]
    fault_iff := by simp
    fault_kinds := fun e' he' => by cases he'; exact he }

/-- The clean halt of HLT (R100). -/
theorem halt_hlt (hinv : StateInv s) (hrun : s.run = .running) : StateInv (halt .hlt .haltNotice s) := by
  have hcause := hinv.cause_of_running hrun
  exact { hinv with
    cause_iff := by simp
    fault_iff := by simp [hinv.fault_of_running hrun]
    printed_regval := by simpa using hinv.printed_regval
    notice_iff := by simp
    report_invalid := by simpa [hcause] using hinv.report_invalid }

/-- The clean halt of an opcode outside the table (R101). -/
theorem halt_invalid (hinv : StateInv s) (hrun : s.run = .running) {op : Byte} (hop : lookupOpcode op = none) :
    StateInv (halt .invalidInstruction (.invalidInstructionReport op) s) := by
  have hcause := hinv.cause_of_running hrun
  exact { hinv with
    cause_iff := by simp
    fault_iff := by simp [hinv.fault_of_running hrun]
    printed_regval := by simpa using hinv.printed_regval
    notice_iff := by simpa [hcause] using hinv.notice_iff
    report_invalid := fun op' hop' => by
      rcases List.mem_append.mp hop' with hold | hnew
      · exact ⟨(hinv.report_invalid op' hold).1, rfl⟩
      · cases List.mem_singleton.mp hnew
        exact ⟨hop, rfl⟩ }

end StateInv

/-- Settles O54: the updates a step is made of each keep the invariant; a product is reduced to a `regval`, and an
immediate is one at every legal width. -/
theorem stepKeepsTheInvariant : Obligations.StepKeepsTheInvariant := by
  intro s t hinv hstep
  rcases step_cases hstep with ⟨-, rfl⟩ | ⟨hrun, hcase⟩
  · exact hinv
  cases hcase with
  | outOfRange a m d _ _ ha => exact (hinv.withShadows m d).abortRun hrun (.inl (by rw [ha hinv.pc_le]))
  | invalid _ hop => exact hinv.afterFetch.halt_invalid hrun hop
  | ldi hpc _ ha =>
    have himm := isRegval_of_byte hinv.width_legal (cellAt s 2)
    exact (hinv.afterFetch.setReg ha himm).advancePc hrun hpc (by decide)
  | prn hpc _ ha =>
    have hprinted := hinv.afterFetch.emit (e := .print s.x[(cellAt s 1).toNat])
      (fun v hv => by cases hv; exact hinv.regs_regval _ ha) nofun nofun
    exact hprinted.advancePc hrun hpc (by decide)
  | mul hpc _ ha _ =>
    exact (hinv.afterFetch.setReg ha (normReg_isRegval s.regw _)).advancePc hrun hpc (by decide)
  | hlt => exact hinv.afterFetch.halt_hlt hrun
  | badFirst _ _ ha => exact hinv.afterFetch.abortRun hrun (.inr ⟨_, ha, rfl⟩)
  | badSecond _ _ _ hb => exact hinv.afterFetch.abortRun hrun (.inr ⟨_, hb, rfl⟩)

/-- A state in which the run has not ended by HLT shows no halt notice (R100). -/
theorem StateInv.notice_notMem {s : State} (hinv : StateInv s) (hcause : s.cause ≠ .hlt) :
    Event.haltNotice ∉ s.out := fun hmem => hcause (hinv.notice_iff.mp hmem)

/-- Settles O57: the invariant holds after 128 steps, and the run is over then; the invariant ties cause, notice and
record to the way it ended. -/
theorem runsEndInOneOfThreeWays : Obligations.RunsEndInOneOfThreeWays := by
  intro s hs
  have hinv : StateInv (runFor 128 s) := runFor_induction stepKeepsTheInvariant 128 s hs
  have hended : (runFor 128 s).run ≠ .running := (everyRunEndsWithin128Steps s).1
  generalize runFor 128 s = u at hinv hended
  cases hrun : u.run with
  | running => exact absurd hrun hended
  | halted =>
    have hfault : u.fault = none := by
      by_contra hfault
      exact absurd (hrun.symm.trans (hinv.fault_iff.mp hfault)) (by decide)
    cases hcause : u.cause with
    | none => exact absurd hcause (hinv.cause_iff.mpr hrun)
    | hlt => exact .inl ⟨rfl, rfl, hinv.notice_iff.mpr hcause, hfault⟩
    | invalidInstruction => exact .inr (.inl ⟨rfl, rfl, hinv.notice_notMem (by simp [hcause]), hfault⟩)
  | aborted =>
    have hcause : u.cause = .none := by
      by_contra hcause
      exact absurd (hrun.symm.trans (hinv.cause_iff.mp hcause)) (by decide)
    obtain ⟨e, he⟩ := Option.ne_none_iff_exists'.mp (hinv.fault_iff.mpr hrun)
    exact .inr (.inr ⟨rfl, hcause, hinv.notice_notMem (by simp [hcause]), e, he, hinv.fault_kinds e he⟩)

end Sys2Proof.Machine
end

section
/-! PROOF. The statements about what a run does not depend on: the shadow registers, traces made between steps, and the
width while no result overflows (43_alu_mul.md, 70_reset_and_hazards.md). -/

namespace Sys2Proof.Machine

/-- Up to 255 the first read sets the shadow registers, so a step does not depend on them (R73, R146). -/
theorem step_withShadows {s : State} (hrun : s.run = .running) (hpc : s.pc.toNat ≤ 255) (m d : Byte) :
    step { s with mar := m, mdr := d } = step s := by
  rcases Nat.lt_or_ge 253 s.pc.toNat with htop | hlow
  · rw [step_of_top hrun htop, step_of_top (s := { s with mar := m, mdr := d }) hrun htop]
    simp [afterFailedFetch, failingAddress, hpc]
  · simp only [step_of_running hrun, step_of_running (s := { s with mar := m, mdr := d }) hrun, runningStep,
      readThree_of_le hlow, readThree_of_le (s := { s with mar := m, mdr := d }) hlow]
    rfl

/-- From 256 on no read succeeds: a run is its first step, the abort, and the shadow registers stay (R35). -/
theorem runFor_succ_of_ge {s : State} (hrun : s.run = .running) (hpc : 256 ≤ s.pc.toNat) (n : Nat) :
    runFor (n + 1) s = abortRun (.outOfRange s.pc.toNat) s := by
  have hlast : ¬ s.pc.toNat ≤ 255 := by omega
  rw [runFor_succ hrun (step_of_top hrun (by omega)), runFor_of_ended (by simp)]
  simp [afterFailedFetch, failingAddress, hpc, hlast]

/-- Settles O38: the first step of the run either reads, and then sets both registers, or ends the run; a run without a
step hands them on. -/
theorem shadowRegistersAreNeverConsulted : Obligations.ShadowRegistersAreNeverConsulted := by
  intro n s m d
  have hreads : 0 < n → s.run = .running → s.pc.toNat ≤ 255 →
      runFor n { s with mar := m, mdr := d } = runFor n s := by
    intro hn hrun hpc
    obtain ⟨n, rfl⟩ := Nat.exists_eq_succ_of_ne_zero hn.ne'
    obtain ⟨t, hstep, -⟩ := exists_step hrun
    rw [runFor_succ hrun hstep, runFor_succ (s := { s with mar := m, mdr := d }) hrun
      ((step_withShadows hrun hpc m d).trans hstep)]
  refine ⟨?_, hreads⟩
  cases n with
  | zero => exact ⟨m, d, rfl⟩
  | succ n =>
    by_cases hrun : s.run = .running
    · rcases Nat.lt_or_ge 255 s.pc.toNat with htop | hlow
      · refine ⟨m, d, ?_⟩
        rw [runFor_succ_of_ge hrun htop, runFor_succ_of_ge (s := { s with mar := m, mdr := d }) hrun htop]
        rfl
      · exact ⟨_, _, hreads n.succ_pos hrun hlow⟩
    · refine ⟨m, d, ?_⟩
      rw [runFor_of_ended hrun, runFor_of_ended (s := { s with mar := m, mdr := d }) hrun]

/-! ### Traces -/

/-- The view without traces is taken once and for all. -/
theorem withoutTraces_withoutTraces (s : State) : withoutTraces (withoutTraces s) = withoutTraces s := by
  simp [withoutTraces]

/-- A trace is invisible in the view without traces (R110). -/
theorem withoutTraces_of_trace {s t : State} (htrace : trace s = .next t) (hlive : t.run = .running) :
    withoutTraces t = withoutTraces s := by
  obtain ⟨-, ⟨-, rfl⟩ | ⟨a, m, d, -, -, -, rfl⟩⟩ := trace_next htrace
  · simp [withoutTraces]
  · simp at hlive

/-- A case of a step, seen from the view without traces: it reads neither the shadow registers nor the output. -/
theorem stepCase_withoutTraces {s t : State} (hcase : StepCase s t) (hrun : s.run = .running) :
    ∃ u, StepCase (withoutTraces s) u ∧ withoutTraces u = withoutTraces t := by
  cases hcase with
  | outOfRange a m d hpc ha ha' =>
    exact ⟨_, .outOfRange (s := withoutTraces s) a m d hpc ha ha', by simp [withoutTraces]⟩
  | invalid hpc hop =>
    exact ⟨_, .invalid (s := withoutTraces s) hpc hop, by simp [withoutTraces, cellAt]⟩
  | ldi hpc hop ha =>
    exact ⟨_, .ldi (s := withoutTraces s) hpc hop ha, by simp [withoutTraces, advancePc, hrun, cellAt]⟩
  | prn hpc hop ha =>
    exact ⟨_, .prn (s := withoutTraces s) hpc hop ha, by simp [withoutTraces, advancePc, hrun, cellAt]⟩
  | mul hpc hop ha hb =>
    exact ⟨_, .mul (s := withoutTraces s) hpc hop ha hb, by simp [withoutTraces, advancePc, hrun, cellAt]⟩
  | hlt hpc hop =>
    exact ⟨_, .hlt (s := withoutTraces s) hpc hop, by simp [withoutTraces]⟩
  | badFirst hpc hop ha =>
    exact ⟨_, .badFirst (s := withoutTraces s) hpc hop ha, by simp [withoutTraces, cellAt]⟩
  | badSecond hpc hop ha hb =>
    exact ⟨_, .badSecond (s := withoutTraces s) hpc hop ha hb, by simp [withoutTraces, cellAt]⟩

/-- A step from the view without traces is the step seen in that view. -/
theorem step_withoutTraces {s t : State} (hrun : s.run = .running) (hstep : step s = .next t) :
    ∃ u, step (withoutTraces s) = .next u ∧ withoutTraces u = withoutTraces t := by
  rcases Nat.lt_or_ge 253 s.pc.toNat with htop | hlow
  · cases hstep.symm.trans (step_of_top hrun htop)
    exact ⟨_, step_of_top (s := withoutTraces s) hrun htop, by
      simp [withoutTraces, failingAddress, afterFailedFetch]⟩
  · obtain ⟨u, hcase, hview⟩ := stepCase_withoutTraces (stepCase_of_step hrun hstep) hrun
    exact ⟨u, hcase.step_eq hrun hlow, hview⟩

/-- A run can be made from the view without traces (R146). -/
theorem runFor_withoutTraces (n : Nat) :
    ∀ s : State, withoutTraces (runFor n (withoutTraces s)) = withoutTraces (runFor n s) := by
  induction n with
  | zero => exact withoutTraces_withoutTraces
  | succ n ih =>
    intro s
    by_cases hrun : s.run = .running
    · obtain ⟨t, hstep, -⟩ := exists_step hrun
      obtain ⟨u, hstep', hview⟩ := step_withoutTraces hrun hstep
      rw [runFor_succ hrun hstep, runFor_succ (s := withoutTraces s) hrun hstep', ← ih u, hview, ih t]
    · rw [runFor_of_ended hrun, runFor_of_ended (s := withoutTraces s) hrun, withoutTraces_withoutTraces]

/-- Settles O40: the state after the trace and the state before it are one in the view without traces, and that view
decides the view of every later state. -/
theorem traceDoesNotDisturbTheRun : Obligations.TraceDoesNotDisturbTheRun := by
  intro s t htrace hlive n
  calc withoutTraces (runFor n t)
      = withoutTraces (runFor n (withoutTraces t)) := (runFor_withoutTraces n t).symm
    _ = withoutTraces (runFor n (withoutTraces s)) := by rw [withoutTraces_of_trace htrace hlive]
    _ = withoutTraces (runFor n s) := runFor_withoutTraces n s

/-! ### The width -/

/-- The width never changes (R26). -/
theorem step_regw {s t : State} (hstep : step s = .next t) : t.regw = s.regw := by
  rcases step_cases hstep with ⟨-, rfl⟩ | ⟨-, hcase⟩
  · rfl
  · cases hcase <;> simp

/-- The end of a step does not look at the width (R77). -/
theorem advancePc_withWidth (adv : PcWord) (w : RegWidth) (s : State) :
    { advancePc adv s with regw := w } = advancePc adv { s with regw := w } := by
  unfold advancePc; split <;> rfl

/-- A case of a step on unbounded hardware that leaves no register at 256 or above is a case at width 8: reduction
changes no product below 256 (R97). -/
theorem stepCase_width8 {s t : State} (hcase : StepCase s t) (hwidth : s.regw = .unbounded)
    (hsmall : ∀ (r : Nat) (h : r < 8), t.x[r] < 256) :
    StepCase { s with regw := .bits 8 } { t with regw := .bits 8 } := by
  cases hcase with
  | outOfRange a m d hpc ha ha' => exact .outOfRange (s := { s with regw := .bits 8 }) a m d hpc ha ha'
  | invalid hpc hop => exact .invalid (s := { s with regw := .bits 8 }) hpc hop
  | ldi hpc hop ha =>
    rw [advancePc_withWidth]
    exact .ldi (s := { s with regw := .bits 8 }) hpc hop ha
  | prn hpc hop ha =>
    rw [advancePc_withWidth]
    exact .prn (s := { s with regw := .bits 8 }) hpc hop ha
  | mul hpc hop ha hb =>
    have hproduct : s.x[(cellAt s 1).toNat] * s.x[(cellAt s 2).toNat] < 256 := by
      simpa [hwidth, normReg] using hsmall (cellAt s 1).toNat ha
    have hsame : normReg s.regw (s.x[(cellAt s 1).toNat] * s.x[(cellAt s 2).toNat]) =
        normReg (.bits 8) (s.x[(cellAt s 1).toNat] * s.x[(cellAt s 2).toNat]) := by
      rw [hwidth, normReg_of_isRegval (w := .bits 8) (decide_eq_true hproduct), normReg]
    rw [advancePc_withWidth, hsame]
    exact .mul (s := { s with regw := .bits 8 }) hpc hop ha hb
  | hlt hpc hop => exact .hlt (s := { s with regw := .bits 8 }) hpc hop
  | badFirst hpc hop ha => exact .badFirst (s := { s with regw := .bits 8 }) hpc hop ha
  | badSecond hpc hop ha hb => exact .badSecond (s := { s with regw := .bits 8 }) hpc hop ha hb

/-- A step on unbounded hardware that leaves no register at 256 or above is the step at width 8 (R97). -/
theorem step_width8 {s t : State} (hrun : s.run = .running) (hwidth : s.regw = .unbounded) (hstep : step s = .next t)
    (hsmall : ∀ (r : Nat) (h : r < 8), t.x[r] < 256) :
    step { s with regw := .bits 8 } = .next { t with regw := .bits 8 } := by
  rcases Nat.lt_or_ge 253 s.pc.toNat with htop | hlow
  · cases hstep.symm.trans (step_of_top hrun htop)
    exact step_of_top (s := { s with regw := .bits 8 }) hrun htop
  · exact (stepCase_width8 (stepCase_of_step hrun hstep) hwidth hsmall).step_eq hrun hlow

/-- The runs at both widths, from a state of unbounded hardware. -/
theorem runFor_width8 (n : Nat) : ∀ {s : State}, s.regw = .unbounded →
    (∀ k, k ≤ n → ∀ (r : Nat) (h : r < 8), (runFor k s).x[r] < 256) →
    runFor n { s with regw := .bits 8 } = { runFor n s with regw := .bits 8 } := by
  induction n with
  | zero => intros; rfl
  | succ n ih =>
    intro s hwidth hsmall
    by_cases hrun : s.run = .running
    · obtain ⟨t, hstep, -⟩ := exists_step hrun
      have hlater : ∀ k, k ≤ n → ∀ (r : Nat) (h : r < 8), (runFor k t).x[r] < 256 := fun k hk => by
        simpa only [runFor_succ hrun hstep] using hsmall (k + 1) (by omega)
      rw [runFor_succ hrun hstep, runFor_succ (s := { s with regw := .bits 8 }) hrun
        (step_width8 hrun hwidth hstep (hlater 0 n.zero_le))]
      exact ih ((step_regw hstep).trans hwidth) hlater
    · rw [runFor_of_ended hrun, runFor_of_ended (s := { s with regw := .bits 8 }) hrun]

/-- Settles O14: step by step, as long as no register reaches 256 the width does not show. -/
theorem widthsAgreeOnRunsWithoutOverflow : Obligations.WidthsAgreeOnRunsWithoutOverflow := by
  intro n s hsmall
  exact runFor_width8 n (s := { s with regw := .unbounded }) rfl hsmall

end Sys2Proof.Machine
end

section
/-! PROOF. The statement that the canonical form determines a memory (20_memory.md). -/

namespace Sys2Proof.Machine

/-- A canonical memory lists exactly the cells that do not read 0. -/
theorem mem_iff_readCell {m : Memory} (hm : m.wf) (a : Nat) (v : Byte) :
    (a, v) ∈ m ↔ a < 256 ∧ v ≠ 0 ∧ readCell m a = v := by
  induction m with
  | nil => simpa using fun _ hv h => hv h.symm
  | cons c m ih =>
    obtain ⟨b, w⟩ := c
    obtain ⟨hbelow, hb, hw, hm'⟩ := wf_cons.mp hm
    rw [List.mem_cons, ih hm', readCell_cons]
    by_cases hab : a = b
    · subst hab
      have hnot : readCell m a = 0 := readCell_of_below hbelow
      simp only [hnot, if_pos, Prod.mk.injEq, true_and]
      grind
    · simp [hab]

/-- The canonical form: rising addresses. -/
theorem pairwise_of_wf {m : Memory} (hm : m.wf) : m.Pairwise fun p q => p.1 < q.1 := by
  simp only [Memory.wf, Bool.and_eq_true, decide_eq_true_eq] at hm
  exact hm.1

/-- Settles O8: both memories list the cells that do not read 0, and they list them in the same order. -/
theorem memoriesThatReadAlikeAreEqual : Obligations.MemoriesThatReadAlikeAreEqual := by
  intro m n hm hn hread
  have hsame : ∀ c, c ∈ m ↔ c ∈ n := by
    rintro ⟨a, v⟩
    rw [mem_iff_readCell hm, mem_iff_readCell hn]
    exact and_congr_right fun ha => by rw [hread a ha]
  have hirrefl : Std.Irrefl fun p q : Host.Cell => p.1 < q.1 := ⟨fun p => Nat.lt_irrefl p.1⟩
  have hasymm : Std.Asymm fun p q : Host.Cell => p.1 < q.1 := ⟨fun p q h => Nat.lt_asymm h⟩
  exact (pairwise_of_wf hm).eq_of_mem_iff (pairwise_of_wf hn) hsame

end Sys2Proof.Machine
end

section
/-! PROOF. The statements about the register multiplexer and the ALU (10_state.md, 43_alu_mul.md). -/

namespace Sys2Proof.Machine

/-- Settles O10: both branches of the multiplexer's index check. -/
theorem registerMultiplexerContract : Obligations.RegisterMultiplexerContract := by
  intro i v s
  refine ⟨fun hi => ?_, fun hi => ⟨regSet_of_ge hi v s, regGet_of_ge hi s⟩⟩
  refine ⟨_, regSet_of_lt hi v s, rfl, ?_, fun r h hne => Vector.getElem_set_ne hi h hne.symm⟩
  rw [regGet_of_lt hi, Vector.getElem_set_self]

/-- What ADD and MUL do where both registers exist: the first receives the reduced result, nothing else changes (R92). -/
theorem aluBinary_contract (f : Nat → Nat → Nat) {a b : Byte} (ha : a.toNat < 8) (hb : b.toNat < 8) (s : State) :
    ∃ t, aluBinary f a b s = .done () t ∧ t = { s with x := t.x } ∧
      t.x[a.toNat] = normReg s.regw (f s.x[a.toNat] s.x[b.toNat]) ∧
      ∀ (r : Nat) (h : r < 8), r ≠ a.toNat → t.x[r] = s.x[r] :=
  ⟨_, aluBinary_of_lt f ha hb s, rfl, Vector.getElem_set_self _, fun _ h hne => Vector.getElem_set_ne ha h hne.symm⟩

/-- Settles O11: the product and the sum are two cases of what the ALU's operations share. -/
theorem aluComputesProductAndSum : Obligations.AluComputesProductAndSum :=
  fun _ _ s ha hb => ⟨aluBinary_contract _ ha hb s, aluBinary_contract _ ha hb s⟩

/-- Settles O12: another tag is refused before any register; the part ADD and MUL share examines the first register
before the second. -/
theorem aluRaisesInTheOrderOfItsChecks : Obligations.AluRaisesInTheOrderOfItsChecks := by
  intro a b s
  exact ⟨fun n => rfl, fun ha => ⟨aluBinary_of_ge_left _ b ha s, aluBinary_of_ge_left _ b ha s⟩,
    fun ha hb => ⟨aluBinary_of_ge_right _ ha hb s, aluBinary_of_ge_right _ ha hb s⟩⟩

/-- Settles O13: reduction modulo 2^8 is what 8-bit words do. -/
theorem reductionIsArithmeticOfTheWidth : Obligations.ReductionIsArithmeticOfTheWidth :=
  ⟨fun u v => ⟨(BitVec.toNat_mul u v).symm, (BitVec.toNat_add u v).symm⟩, fun _ _ => ⟨rfl, rfl⟩⟩

end Sys2Proof.Machine
end

section
/-! PROOF. The statements about the four instructions as `exec` runs them (41_ldi.md to 44_hlt_and_invalid.md). -/

namespace Sys2Proof.Machine

/-- Settles O15: LDI's handler writes the immediate and the run, still Running, advances. -/
theorem execLdiCompletes : Obligations.ExecLdiCompletes := by
  intro s a imm ha hrun
  simp only [exec, execLdi, handleLdi_of_lt ha, finish_done, advancePc, hrun, if_true]

/-- Settles O16: PRN's handler emits the value and the run, still Running, advances. -/
theorem execPrnCompletes : Obligations.ExecPrnCompletes := by
  intro s a ha hrun
  simp only [exec, execPrn, handlePrn_of_lt ha, finish_done, advancePc, emit, hrun, if_true]

/-- Settles O17: MUL's handler writes the reduced product and the run, still Running, advances. -/
theorem execMulCompletes : Obligations.ExecMulCompletes := by
  intro s a b ha hb hrun
  simp only [exec, execMul, handleMul_of_lt ha hb, finish_done, advancePc, hrun, if_true]

/-- Settles O18: HLT ends the run, so pc is not advanced. -/
theorem execHltCompletes : Obligations.ExecHltCompletes := by
  intro s
  rw [exec, execHlt, handleHlt, finish_done, advancePc_halt]
  rfl

/-- Settles O19: each handler raises before it writes, and the raise is the entry to Aborted. -/
theorem execOfAMissingRegisterAborts : Obligations.ExecOfAMissingRegisterAborts := by
  intro s a b imm
  refine ⟨fun ha => ⟨?_, ?_, ?_⟩, fun ha hb => ?_⟩
  · rw [exec, execLdi, handleLdi_of_ge ha, finish_raised, abortRun]
  · rw [exec, execPrn, handlePrn_of_ge ha, finish_raised, abortRun]
  · rw [exec, execMul, handleMul_of_ge_left b ha, finish_raised, abortRun]
  · rw [exec, execMul, handleMul_of_ge_right ha hb, finish_raised, abortRun]

/-- What an instruction can do: complete, or abort at a register that does not exist. -/
inductive ExecCase (s : State) : Instr → State → Prop where
  | ldi (a imm : Byte) (ha : a.toNat < 8) :
      ExecCase s (.ldi a imm) (advancePc 3 { s with x := s.x.set a.toNat imm.toNat ha })
  | prn (a : Byte) (ha : a.toNat < 8) : ExecCase s (.prn a) (advancePc 2 (emit (.print s.x[a.toNat]) s))
  | mul (a b : Byte) (ha : a.toNat < 8) (hb : b.toNat < 8) :
      ExecCase s (.mul a b)
        (advancePc 3 { s with x := s.x.set a.toNat (normReg s.regw (s.x[a.toNat] * s.x[b.toNat])) ha })
  | hlt : ExecCase s .hlt (halt .hlt .haltNotice s)
  | missing (i : Instr) (r : Byte) (hi : i.wf = false) : ExecCase s i (abortRun (.invalidRegister r) s)

/-- An instruction answers a next state, by one of the cases. -/
theorem exists_exec (i : Instr) (s : State) : ∃ t, exec i s = .next t ∧ ExecCase s i t := by
  cases i with
  | ldi a imm =>
    rcases Nat.lt_or_ge a.toNat 8 with ha | ha
    · exact ⟨_, congrArg finish (handleLdi_of_lt ha imm s), .ldi a imm ha⟩
    · exact ⟨_, congrArg finish (handleLdi_of_ge ha imm s), .missing _ a (by simp [Instr.wf, ha])⟩
  | prn a =>
    rcases Nat.lt_or_ge a.toNat 8 with ha | ha
    · exact ⟨_, congrArg finish (handlePrn_of_lt ha s), .prn a ha⟩
    · exact ⟨_, congrArg finish (handlePrn_of_ge ha s), .missing _ a (by simp [Instr.wf, ha])⟩
  | mul a b =>
    rcases Nat.lt_or_ge a.toNat 8 with ha | ha
    · rcases Nat.lt_or_ge b.toNat 8 with hb | hb
      · exact ⟨_, congrArg finish (handleMul_of_lt ha hb s), .mul a b ha hb⟩
      · exact ⟨_, congrArg finish (handleMul_of_ge_right ha hb s), .missing _ b (by simp [Instr.wf, hb])⟩
    · exact ⟨_, congrArg finish (handleMul_of_ge_left b ha s), .missing _ a (by simp [Instr.wf, ha])⟩
  | hlt => exact ⟨_, execHltCompletes s, .hlt⟩

/-- The cases of an instruction that answers a next state. -/
theorem exec_cases {i : Instr} {s t : State} (h : exec i s = .next t) : ExecCase s i t := by
  obtain ⟨u, hu, hcase⟩ := exists_exec i s
  cases h.symm.trans hu
  exact hcase

/-- A register that a write changed is the one written. -/
theorem eq_of_getElem_set_ne {x : Vector Nat 8} {i r v : Nat} {hi : i < 8} {hr : r < 8}
    (h : (x.set i v hi)[r] ≠ x[r]) : r = i := by
  by_contra hne
  exact h (Vector.getElem_set_ne _ hr (Ne.symm hne))

/-- Settles O20: of the completing instructions LDI and MUL write a register, PRN the output, HLT the output, the run
and its cause; where a register is missing only the run and its record are written. -/
theorem instructionFrame : Obligations.InstructionFrame := by
  intro i s t h
  cases exec_cases h with
  | ldi a imm => simpa using fun _ _ => eq_of_getElem_set_ne
  | prn a => simp
  | mul a b => simpa using fun _ _ => eq_of_getElem_set_ne
  | hlt => simp
  | missing _ _ hi => simp [hi]

/-- Settles O21: multiplication commutes, and in each order only the receiving register is written. -/
theorem mulOperandsCommuteInValue : Obligations.MulOperandsCommuteInValue := by
  intro s a b ha hb hrun
  refine ⟨_, _, execMulCompletes s a b ha hb hrun, execMulCompletes s b a hb ha hrun, ?_,
    fun r h hne => Vector.getElem_set_ne ha h hne.symm, fun r h hne => Vector.getElem_set_ne hb h hne.symm, rfl⟩
  rw [Vector.getElem_set_self, Vector.getElem_set_self, Nat.mul_comm]

end Sys2Proof.Machine
end

section
/-! PROOF. The statements about one step (40_step_fetch_decode_dispatch.md, 60_exceptions.md), each by the cases of a
step. -/

namespace Sys2Proof.Machine

/-- Settles O22: the three reads of the fetch, then the decoded instruction. -/
theorem stepRunsTheDecodedInstruction : Obligations.StepRunsTheDecodedInstruction :=
  fun _ _ hrun hpc hdecode => step_of_instr hrun hpc hdecode

/-- Up to 253 every case of a step leaves the shadow registers as the fetch set them (R73). -/
theorem StepCase.shadows {s t : State} (hcase : StepCase s t) (hpc : s.pc.toNat ≤ 253) :
    t.mar.toNat = s.pc.toNat + 2 ∧ t.mdr = cellAt s 2 := by
  have hmar : (BitVec.ofNat 8 (s.pc.toNat + 2)).toNat = s.pc.toNat + 2 := toNat_ofNat_of_lt (by omega)
  cases hcase with
  | outOfRange _ _ _ htop => omega
  | invalid | ldi | prn | mul | hlt | badFirst | badSecond => simpa using hmar

/-- Settles O25: the step is MUL's handler after the fetch, which examines the first register, then the second. -/
theorem mulStep : Obligations.MulStep := by
  intro s hrun hpc hop
  refine ⟨fun ha hb => ?_, fun hbad => ?_⟩
  · have hcase := StepCase.mul hpc hop ha hb
    have hadvance := advancePc_pc_toNat (adv := 3)
      (s := { afterFetch s with
        x := s.x.set _ (normReg s.regw (s.x[(cellAt s 1).toNat] * s.x[(cellAt s 2).toNat])) ha })
      hrun hpc (by decide)
    obtain ⟨hmar, hmdr⟩ := hcase.shadows hpc
    refine ⟨_, hcase.step_eq hrun hpc, advancePc_x .., hadvance, hmar, hmdr, ?_⟩
    simpa using advancePc_frame ..
  · rcases Nat.lt_or_ge (cellAt s 1).toNat 8 with ha | ha
    · have hb : 8 ≤ (cellAt s 2).toNat := by omega
      exact ⟨_, (StepCase.badSecond hpc hop ha hb).step_eq hrun hpc, rfl, rfl, rfl, rfl, rfl,
        by rw [abortRun_fault, if_neg (by omega)]⟩
    · exact ⟨_, (StepCase.badFirst hpc (.inr (.inr hop)) ha).step_eq hrun hpc, rfl, rfl, rfl, rfl, rfl,
        by rw [abortRun_fault, if_pos ha]⟩

/-- Settles O27: the fetch, then the clean halt, whose fields are written out. -/
theorem invalidOpcodeStep : Obligations.InvalidOpcodeStep :=
  fun _ hrun hpc hop => step_of_invalidOpcode hrun hpc hop

/-- Settles O30: no handler reads memory, so the last read is the fetch's; at the top it is that of the last cell, or
there is none. -/
theorem shadowRegistersHoldTheLastRead : Obligations.ShadowRegistersHoldTheLastRead := by
  intro s t hrun hstep
  refine ⟨fun hpc => ?_, fun htop => ?_, fun htop => ?_⟩
  · exact (stepCase_of_step hrun hstep).shadows hpc
  · cases hstep.symm.trans (step_of_top hrun (by omega))
    have hlast : s.pc.toNat ≤ 255 := by omega
    simp [afterFailedFetch, hlast]
  · cases hstep.symm.trans (step_of_top hrun (by omega))
    simp [afterFailedFetch, htop]

/-- Settles O31: the cases of LDI and MUL are the only ones that write a register, and they write the first operand. -/
theorem registersChangeOnlyAsFirstOperand : Obligations.RegistersChangeOnlyAsFirstOperand := by
  intro s t r hr hstep hchange
  rcases step_cases hstep with ⟨-, rfl⟩ | ⟨hrun, hcase⟩
  · exact absurd rfl hchange
  cases hcase with
  | ldi hpc hop ha => exact ⟨hrun, hpc, (eq_of_getElem_set_ne (by simpa using hchange)).symm, .inl hop⟩
  | mul hpc hop ha hb => exact ⟨hrun, hpc, (eq_of_getElem_set_ne (by simpa using hchange)).symm, .inr ⟨hop, hb⟩⟩
  | outOfRange | invalid | prn | hlt | badFirst | badSecond => simp at hchange

/-- Settles O32: PRN, HLT and the invalid opcode append their one event, every other case none. -/
theorem outputGrowsByAtMostOneEvent : Obligations.OutputGrowsByAtMostOneEvent := by
  intro s t hstep
  rcases step_cases hstep with ⟨hhalted, rfl⟩ | ⟨hrun, hcase⟩
  · exact ⟨[], by simp⟩
  cases hcase with
  | outOfRange | ldi | mul | badFirst | badSecond => exact ⟨[], by simp⟩
  | prn _ hop => exact ⟨[.print _], advancePc_out .., by simp [hrun, hop]⟩
  | invalid => exact ⟨[.invalidInstructionReport _], halt_out .., by simp [hrun]⟩
  | hlt => exact ⟨[.haltNotice], halt_out .., by simp [hrun]⟩

/-- A step halts the run by HLT exactly at an HLT opcode at 253 or below (R100, R145). -/
theorem StepCase.halted_hlt_iff {s t : State} (hcase : StepCase s t) (hrun : s.run = .running) :
    t.run = .halted ∧ t.cause = .hlt ↔ s.pc.toNat ≤ 253 ∧ cellAt s 0 = 0x01 := by
  cases hcase with
  | hlt hpc hop => simp [hpc, hop]
  | outOfRange _ _ _ hpc => simp [hpc]
  | invalid _ hop => simpa using fun _ => ((lookupOpcode_eq_none_iff _).mp hop).1
  | ldi _ hop | prn _ hop | mul _ hop | badSecond _ hop => simp [hop, hrun]
  | badFirst _ hop => rcases hop with hop | hop | hop <;> simp [hop]

/-- A step halts the run by an invalid opcode exactly at one at 253 or below (R101, R145). -/
theorem StepCase.halted_invalid_iff {s t : State} (hcase : StepCase s t) (hrun : s.run = .running) :
    t.run = .halted ∧ t.cause = .invalidInstruction ↔ s.pc.toNat ≤ 253 ∧ lookupOpcode (cellAt s 0) = none := by
  cases hcase with
  | invalid hpc hop => simp [hpc, hop]
  | outOfRange _ _ _ hpc => simp [hpc]
  | hlt _ hop | ldi _ hop | prn _ hop | mul _ hop | badSecond _ hop => simp [hop, hrun, lookupOpcode_eq_none_iff]
  | badFirst _ hop => rcases hop with hop | hop | hop <;> simp [hop, lookupOpcode_eq_none_iff]

/-- A step aborts exactly where the fetch fails or an operand names a register that does not exist (R121, R122). -/
theorem StepCase.aborted_iff {s t : State} (hcase : StepCase s t) (hrun : s.run = .running) :
    t.run = .aborted ↔ 253 < s.pc.toNat ∨
      (cellAt s 0 = 0x82 ∨ cellAt s 0 = 0x47 ∨ cellAt s 0 = 0xA2) ∧ 8 ≤ (cellAt s 1).toNat ∨
      cellAt s 0 = 0xA2 ∧ 8 ≤ (cellAt s 2).toNat := by
  cases hcase with
  | outOfRange _ _ _ hpc => simp [hpc]
  | badFirst _ hop ha => exact iff_of_true rfl (.inr (.inl ⟨hop, ha⟩))
  | badSecond _ hop _ hb => exact iff_of_true rfl (.inr (.inr ⟨hop, hb⟩))
  | invalid hpc hop =>
    obtain ⟨-, hprn, hldi, hmul⟩ := (lookupOpcode_eq_none_iff _).mp hop
    exact iff_of_false (by simp) (by grind)
  | hlt hpc hop => simp [hpc, hop]
  | ldi hpc hop ha | prn hpc hop ha => simp [hpc, hop, ha, hrun]
  | mul hpc hop ha hb => simp [hpc, hop, ha, hb, hrun]

/-- Settles O33: each transition is one reason's, read off the cases of a step. -/
theorem sequencerTransitions : Obligations.SequencerTransitions := by
  intro s t hrun hcause hstep
  have hcase := stepCase_of_step hrun hstep
  refine ⟨hcase.halted_hlt_iff hrun, hcase.halted_invalid_iff hrun, hcase.aborted_iff hrun, fun hlive => ?_⟩
  obtain ⟨-, hkept, hmoved⟩ := hcase.of_running hrun hlive
  exact ⟨hkept.trans hcause, hmoved⟩

/-- Settles O34: the sequencer looks at the run first. -/
theorem terminalStatesAreFrozen : Obligations.TerminalStatesAreFrozen := by
  intro s
  refine ⟨step_of_halted, fun haborted => ?_⟩
  simp only [step, sequencerStep, haborted]

/-- Settles O35: in the three cases that abort nothing was written before the raise but the shadow registers. -/
theorem abortsArePrecise : Obligations.AbortsArePrecise := by
  intro s t hrun hstep haborted
  cases stepCase_of_step hrun hstep with
  | outOfRange | badFirst | badSecond => exact ⟨rfl, by simp⟩
  | invalid | hlt => simp at haborted
  | ldi | prn | mul => simp [hrun] at haborted

/-- Settles O36: each case of a step is the first check that fails, or none that does; the code is that of the kind of
the record, or of the cause. -/
theorem firstFailingCheckIsReported : Obligations.FirstFailingCheckIsReported := by
  intro s hrun hle hfault hcause
  rcases Nat.lt_or_ge 253 s.pc.toNat with htop | hpc
  · have hge : 254 ≤ s.pc.toNat := htop
    exact ⟨_, step_of_top hrun htop, by simp [hge, failingAddress, hle],
      by simp [hge, reportedKind, raisedKind, errorCode]⟩
  have hlow : ¬ 254 ≤ s.pc.toNat := by omega
  obtain ⟨t, hstep, hcase⟩ := exists_step hrun
  refine ⟨t, hstep, ?_⟩
  cases hcase with
  | outOfRange _ _ _ htop => omega
  | invalid _ hop => simp [hlow, hop, hfault, reportedKind, errorCode]
  | hlt _ hop => simp [hlow, hop, hfault, lookupOpcode_eq, reportedKind, errorCode]
  | ldi _ hop ha | prn _ hop ha => simp [hlow, hop, ha, hfault, hcause, lookupOpcode_eq, reportedKind, errorCode]
  | mul _ hop ha hb =>
    simp [hlow, hop, ha.not_ge, hb.not_ge, hfault, hcause, lookupOpcode_eq, reportedKind, errorCode]
  | badFirst _ hop ha =>
    rcases hop with hop | hop | hop <;> simp [hlow, hop, ha, lookupOpcode_eq, reportedKind, raisedKind, errorCode]
  | badSecond _ hop ha hb =>
    simp [hlow, hop, ha, hb, lookupOpcode_eq, reportedKind, raisedKind, errorCode]

/-- Settles O46: the memory of construction reads 0 everywhere, and 0x00 is no opcode of the table. -/
theorem emptyProgramEndsAtItsFirstStep : Obligations.EmptyProgramEndsAtItsFirstStep := fun p =>
  ⟨_, step_of_invalidOpcode (construct_run p) (by simp)
    (show lookupOpcode 0 = none by decide), halt_run .., halt_cause .., rfl, rfl, rfl, rfl, rfl⟩

end Sys2Proof.Machine
end

section
/-! PROOF. The statements about the host's side (45_host_interface.md, 70_reset_and_hazards.md): traces, reset, loading,
launching and the host's writes. -/

namespace Sys2Proof.Machine

/-- Settles O39: a trace makes the reads of a step, so up to 253 they all succeed, and above both abort alike. -/
theorem traceEffect : Obligations.TraceEffect := by
  intro s
  refine ⟨fun hrun hpc => ?_, fun hrun htop => ?_, fun hended => if_neg hended⟩
  · rw [trace, if_pos hrun, readThree_of_le hpc]
    rfl
  · have htrace : trace s = .next (abortRun (.outOfRange (failingAddress s)) (afterFailedFetch s)) := by
      rw [trace, if_pos hrun, readThree_of_top htop]
    exact ⟨htrace.trans (step_of_top hrun htop).symm, _, htrace, rfl⟩

/-- Settles O41: construction is written out field by field. -/
theorem resetState : Obligations.ResetState :=
  ⟨fun _ _ => rfl, fun _ => ⟨rfl, rfl, rfl, rfl, rfl, rfl, rfl, rfl, rfl⟩, ⟨Launch.default, rfl⟩, rfl⟩

/-! ### Loading -/

/-- Bytes placed from `k` on leave the cells after the last of them alone (R105). -/
theorem readCell_placeBytes_above (vs : List Byte) :
    ∀ {k : Nat} (m : Memory) {c : Nat}, k + vs.length ≤ c → readCell (placeBytes k vs m) c = readCell m c := by
  induction vs with
  | nil => intros; rfl
  | cons v vs ih =>
    intro k m c hc
    rw [List.length_cons] at hc
    rw [placeBytes, ih _ (by omega)]
    split
    · exact readCell_writeCell_other _ _ (by omega)
    · rfl

/-- Settles O42: before the run the image is placed byte by byte from address 0. -/
theorem loadPlacesTheImage : Obligations.LoadPlacesTheImage := by
  intro image s hbefore hmem hlen
  refine ⟨_, load_of_le hbefore hlen, rfl, fun k hk => ?_, fun k hk => ?_⟩
  · have hcell := readCell_placeBytes image hmem (k := 0) (j := k) (by omega)
    simpa [hk] using hcell
  · exact readCell_placeBytes_above image s.mem (by omega)

/-- Bytes written through the arbiter that all have a cell: memory is as if they had been placed, and the shadow
registers hold the last address and byte, if there was one (R33, R105). -/
theorem writeImage_of_le (image : List Byte) : ∀ (k : Nat) (s : State), k + image.length ≤ 256 →
    ∃ m d, writeImage k image s = .done () { s with mem := placeBytes k image s.mem, mar := m, mdr := d } ∧
      (image = [] → m = s.mar ∧ d = s.mdr) ∧
      ∀ h : image ≠ [], m.toNat + 1 = k + image.length ∧ d = image.getLast h := by
  induction image with
  | nil => exact fun k s _ => ⟨s.mar, s.mdr, rfl, fun _ => ⟨rfl, rfl⟩, fun h => absurd rfl h⟩
  | cons v vs ih =>
    intro k s hlen
    rw [List.length_cons] at hlen
    have hk : k < 256 := by omega
    obtain ⟨m, d, hrest, hnone, hsome⟩ := ih (k + 1)
      { s with mem := writeCell s.mem k v, mar := BitVec.ofNat 8 k, mdr := v } (by omega)
    refine ⟨m, d, ?_, nofun, fun _ => ?_⟩
    · rw [writeImage, memWrite_of_lt hk, andThen_done, hrest, placeBytes, if_pos hk]
    · by_cases hvs : vs = []
      · subst hvs
        obtain ⟨rfl, rfl⟩ := hnone rfl
        exact ⟨by rw [toNat_ofNat_of_lt hk]; rfl, rfl⟩
      · obtain ⟨hm, hd⟩ := hsome hvs
        exact ⟨by rw [hm, List.length_cons]; omega, by rw [hd, List.getLast_cons hvs]⟩

/-- Bytes written through the arbiter of which one has no cell: the first such write raises (R33, R121). -/
theorem writeImage_of_gt (image : List Byte) : ∀ (k : Nat) (s : State), k ≤ 256 → 256 < k + image.length →
    ∃ t, writeImage k image s = .raised (.outOfRange 256) t := by
  induction image with
  | nil => intro k s hk hlen; simp at hlen; omega
  | cons v vs ih =>
    intro k s hk hlen
    rw [List.length_cons] at hlen
    rw [writeImage]
    rcases Nat.lt_or_ge k 256 with hlt | hge
    · rw [memWrite_of_lt hlt, andThen_done]
      exact ih (k + 1) _ hlt (by omega)
    · obtain rfl : k = 256 := by omega
      exact ⟨s, by rw [memWrite_of_ge hge, andThen_raised]⟩

/-- A load through the arbiter before the run of an image that fits. -/
theorem loadThroughArbiter_of_le {image : List Byte} {s : State} (hb : BeforeRun s) (h : image.length ≤ 256) :
    loadThroughArbiter image s = settle (writeImage 0 image s) := by
  rw [loadThroughArbiter, beforeRunOnly_of_before hb, if_neg (Nat.not_lt.mpr h)]

/-- Settles O43: the arbiter writes byte by byte what direct loading places; both designs look at the length first. -/
theorem loaderDesignsAgree : Obligations.LoaderDesignsAgree := by
  refine ⟨fun image s hbefore hlen => ?_, fun image s hlen => ?_, fun image s hlen => ⟨?_, fun hbefore => ?_⟩⟩
  · obtain ⟨m, d, hwrite, hnone, hsome⟩ := writeImage_of_le image 0 s (by omega)
    refine ⟨_, _, load_of_le hbefore hlen, by rw [loadThroughArbiter_of_le hbefore hlen, hwrite, settle_done], rfl,
      fun hnil => ?_, fun h => ?_⟩
    · obtain ⟨rfl, rfl⟩ := hnone hnil
      rw [hnil, placeBytes]
    · simpa using hsome h
  · obtain ⟨m, d, hwrite, -, -⟩ := writeImage_of_le image 0 s (by omega)
    exact ⟨_, hwrite, rfl⟩
  · exact writeImage_of_gt image 0 s (by decide) (by omega)
  · exact ⟨by rw [load, beforeRunOnly_of_before hbefore, if_pos hlen],
      by rw [loadThroughArbiter, beforeRunOnly_of_before hbefore, if_pos hlen]⟩

/-! ### The other writes of the host -/

/-- A preload before the run of a `regval` is the multiplexer's `set` (R107). -/
theorem preload_of_regval {i : Byte} {v : Nat} {s : State} (hb : BeforeRun s) (hv : isRegval s.regw v = true) :
    preload i v s = settle (regSet i v s) := by
  rw [preload, beforeRunOnly_of_before hb, if_pos hv]

/-- A byte presented before the run is the arbiter's write (R31, R33). -/
theorem presentWrite_of_byte {a v : Nat} {s : State} (hb : BeforeRun s) (hv : v < 256) :
    presentWrite a v s = settle (memWrite a (BitVec.ofNat 8 v) s) := by
  rw [presentWrite, if_pos hv, beforeRunOnly_of_before hb]

/-- Settles O47: the value is looked at first, then the multiplexer looks at the index. -/
theorem preloadSetsOneRegister : Obligations.PreloadSetsOneRegister := by
  intro i v s hbefore
  refine ⟨fun hv hi => ?_, fun hv hi => ?_, fun hv => ?_⟩
  · obtain ⟨hset, -⟩ := registerMultiplexerContract i v s
    obtain ⟨t, ht, hframe, hget, hother⟩ := hset hi
    exact ⟨t, by rw [preload_of_regval hbefore hv, ht, settle_done], hget, hframe, hother⟩
  · rw [preload_of_regval hbefore hv, regSet_of_ge hi, settle_raised, abortRun]
  · simp [preload, beforeRunOnly_of_before hbefore, hv]

/-- Settles O48: the value is looked at first, then the arbiter looks at the address. -/
theorem onlyBytesCanBeWritten : Obligations.OnlyBytesCanBeWritten := by
  intro a v s
  refine ⟨fun hv => if_neg (Nat.not_lt.mpr hv), fun hv hbefore ha => ?_, fun hv hbefore ha => ?_⟩
  · exact ⟨_, by rw [presentWrite_of_byte hbefore hv, memWrite_of_lt ha, settle_done], memWrite_of_lt ha _ s⟩
  · rw [presentWrite_of_byte hbefore hv, memWrite_of_ge ha, settle_raised, abortRun]

/-- Settles O49: a step that leaves the engine running moves pc away from 0, and the guard of every write of the host
asks for pc 0. -/
theorem hostWritesOnlyBeforeTheRun : Obligations.HostWritesOnlyBeforeTheRun := by
  refine ⟨fun s t hstep hbefore => ?_, fun s hended hbefore => ?_, fun s hbegun => ⟨fun i v => ?_, fun image => ?_, ?_⟩⟩
  · obtain ⟨hlive, hpc⟩ := hbefore
    rcases step_cases hstep with ⟨hhalted, rfl⟩ | ⟨hrun, hcase⟩
    · exact absurd (hlive.symm.trans hhalted) (by decide)
    · obtain ⟨-, -, hmoved⟩ := hcase.of_running hrun hlive
      simp [hpc] at hmoved
  · obtain ⟨hrun, -⟩ := hbefore
    simp [hrun] at hended
  · exact beforeRunOnly_of_begun hbegun _
  · exact ⟨beforeRunOnly_of_begun hbegun _, beforeRunOnly_of_begun hbegun _⟩
  · intro a v hv
    rw [presentWrite, if_pos hv, beforeRunOnly_of_begun hbegun]

/-- Settles O50: the preload writes one register, the load memory alone, and both leave the engine before the run. -/
theorem preloadAndLoadMayComeInEitherOrder : Obligations.PreloadAndLoadMayComeInEitherOrder := by
  intro i v image s hbefore hi hv hlen
  have hpreload : ∀ u : State, BeforeRun u → u.regw = s.regw →
      preload i v u = .next { u with x := u.x.set i.toNat v hi } := fun u hu hw => by
    rw [preload_of_regval hu (hw ▸ hv), regSet_of_lt hi, settle_done]
  exact ⟨_, _, _, hpreload s hbefore rfl, load_of_le (s := { s with x := _ }) hbefore hlen, load_of_le hbefore hlen,
    hpreload (placeImage image s) hbefore rfl⟩

/-! ### Launching -/

/-- The launch's test of the register values, register by register (R107). -/
theorem all_isRegval_iff (w : RegWidth) (x : Vector Nat 8) :
    x.toList.all (isRegval w) = true ↔ ∀ (r : Nat) (h : r < 8), isRegval w x[r] = true := by
  rw [List.all_eq_true]
  refine ⟨fun hall r h => hall _ (Vector.mem_toList_iff.mpr (Vector.getElem_mem h)), fun hall v hv => ?_⟩
  obtain ⟨r, h, rfl⟩ := Vector.getElem_of_mem (Vector.mem_toList_iff.mp hv)
  exact hall r h

/-- The launch's test of the image, value by value (R106). -/
theorem all_byte_iff (image : List Nat) :
    image.all (fun v => decide (v < 256)) = true ↔ ∀ v ∈ image, v < 256 := by
  simp only [List.all_eq_true, decide_eq_true_eq]

/-- What a launch asks for (R106, R107). -/
def Launch.Legal (p : Launch) : Prop :=
  p.regw.legal = true ∧ p.image.length ≤ 256 ∧ (∀ v ∈ p.image, v < 256) ∧
    ∀ (r : Nat) (h : r < 8), isRegval p.regw p.regInit[r] = true

/-- The state of a launch: the image placed in the constructed state (R141). -/
def Launch.start (p : Launch) : State := placeImage (p.image.map (BitVec.ofNat 8)) (State.construct p)

/-- A legal launch has a run. -/
theorem launch_of_legal {p : Launch} (h : p.Legal) : launch p = .next p.start := by
  obtain ⟨hwidth, hlen, hbytes, hregs⟩ := h
  rw [launch, if_neg (by simp [hwidth]), if_neg (Nat.not_lt.mpr hlen), (all_byte_iff _).mpr hbytes, if_neg (by decide),
    (all_isRegval_iff _ _).mpr hregs, if_neg (by decide), load_of_le (construct_beforeRun p) (by simpa using hlen)]
  rfl

/-- A launch that has a run was legal. -/
theorem launch_next {p : Launch} {s : State} (h : launch p = .next s) : p.Legal ∧ s = p.start := by
  have hlegal : p.Legal := by
    unfold launch at h
    split at h; · cases h
    split at h; · cases h
    split at h; · cases h
    split at h; · cases h
    rename_i hwidth hlen hbytes hregs
    exact ⟨by simpa using hwidth, Nat.le_of_not_lt hlen, (all_byte_iff _).mp (by simpa using hbytes),
      (all_isRegval_iff _ _).mp (by simpa using hregs)⟩
  rw [launch_of_legal hlegal] at h
  cases h
  exact ⟨hlegal, rfl⟩

/-- Settles O44: the image's length is looked at before its values. -/
theorem launchAcceptsExactlyTheLegalImages : Obligations.LaunchAcceptsExactlyTheLegalImages := by
  intro p hwidth hregs
  refine ⟨fun hlen hbytes => ⟨_, launch_of_legal ⟨hwidth, hlen, hbytes, hregs⟩⟩, fun hlong => ?_,
    fun hlen ⟨v, hv, hge⟩ => ?_⟩
  · rw [launch, if_neg (by simp [hwidth]), if_pos hlong]
  · have hbytes : p.image.all (fun v => decide (v < 256)) = false := by
      rw [← Bool.not_eq_true, all_byte_iff]
      exact fun hall => absurd (hall v hv) (Nat.not_lt.mpr hge)
    rw [launch, if_neg (by simp [hwidth]), if_neg (Nat.not_lt.mpr hlen), if_pos hbytes]

/-- The constructed state satisfies the invariant where the launch is legal (R25). -/
theorem construct_inv {p : Launch} (hwidth : p.regw.legal = true)
    (hregs : ∀ (r : Nat) (h : r < 8), isRegval p.regw p.regInit[r] = true) : StateInv (State.construct p) where
  mem_wf := wf_nil
  pc_le := by simp
  width_legal := hwidth
  regs_regval := hregs
  cause_iff := by simp
  fault_iff := by simp
  fault_kinds := by simp
  printed_regval := by simp
  notice_iff := by simp
  report_invalid := by simp

/-- Settles O53: reset is a legal construction. -/
theorem resetSatisfiesTheInvariant : Obligations.ResetSatisfiesTheInvariant :=
  construct_inv (p := Launch.default) rfl (by decide)

/-- Settles O45: the launched state is the constructed one with the image placed in its memory of zeros. -/
theorem launchedStateIsReadyToRun : Obligations.LaunchedStateIsReadyToRun := by
  intro p s hlaunch
  obtain ⟨⟨hwidth, hlen, hbytes, hregs⟩, rfl⟩ := launch_next hlaunch
  refine ⟨rfl, rfl, rfl, rfl, fun k hk => ?_, (construct_inv hwidth hregs).withMem (placeBytes_wf _ 0 wf_nil)⟩
  have hcell := readCell_placeBytes (p.image.map (BitVec.ofNat 8)) wf_nil (k := 0) (j := k) (by omega)
  rw [Nat.zero_add, readCell_nil] at hcell
  refine (congrArg BitVec.toNat hcell).trans ?_
  rcases Nat.lt_or_ge k p.image.length with hin | hout
  · simp [hin, Nat.mod_eq_of_lt (hbytes _ (List.getElem_mem hin))]
  · simp [hout]

/-! ### The invariant and the host -/

/-- Settles O55: each operation is made of updates that keep the invariant; an address of at most 256 that has no cell
is 256. -/
theorem hostOperationsKeepTheInvariant : Obligations.HostOperationsKeepTheInvariant := by
  refine ⟨fun s t hinv htrace => ?_, fun i v s t hinv hpreload => ?_, fun image s t hinv hload => ?_,
    fun a v s t hinv ha hwrite => ?_⟩
  · obtain ⟨hrun, ⟨-, rfl⟩ | ⟨a, m, d, -, -, ha, rfl⟩⟩ := trace_next htrace
    · exact hinv.afterFetch.emit nofun nofun nofun
    · exact (hinv.withShadows m d).abortRun hrun (.inl (by rw [ha hinv.pc_le]))
  · obtain ⟨hbefore, hv, ⟨hi, rfl⟩ | ⟨hi, rfl⟩⟩ := preload_next hpreload
    · exact hinv.setReg hi hv
    · exact hinv.abortRun hbefore.1 (.inr ⟨i, hi, rfl⟩)
  · have hmem : (placeBytes 0 image s.mem).wf := placeBytes_wf image 0 hinv.mem_wf
    rcases hload with hload | hload
    · obtain ⟨-, -, rfl⟩ := load_next hload
      exact hinv.withMem hmem
    · obtain ⟨hbefore, hfits⟩ := beforeRunOnly_next hload
      split at hfits
      · cases hfits
      · obtain ⟨m, d, hwrite, -, -⟩ := writeImage_of_le image 0 s (by simp only [Config.memSize] at *; omega)
        rw [hwrite, settle_done] at hfits
        cases hfits
        exact (hinv.withMem hmem).withShadows m d
  · obtain ⟨hbefore, -, ⟨hlt, rfl⟩ | ⟨hge, rfl⟩⟩ := presentWrite_next hwrite
    · exact (hinv.withMem (writeCell_wf hinv.mem_wf hlt _)).withShadows _ _
    · exact hinv.abortRun hbefore.1 (.inl (by rw [Nat.le_antisymm ha hge]))

/-- Settles O52: the invariant ties the cause to Halted, and the host looks at the run, then at the cause. -/
theorem hostOwesTheEndTheCauseAsksFor : Obligations.HostOwesTheEndTheCauseAsksFor := by
  intro s hinv
  have hhalted : s.cause ≠ .none → s.run = .halted := hinv.cause_iff.mp
  refine ⟨fun hcause => ?_, fun hcause => ?_, fun hrun => ?_, fun hrun => ?_⟩
  · exact ⟨Config.hltExitStatus, Nat.succ_ne_zero _, by simp [hostEnd, hhalted, hcause]⟩
  · simp [hostEnd, hhalted, hcause]
  · exact ⟨Config.abortExitStatus, by simp [hostEnd, hrun]⟩
  · simp [hostEnd, hrun]

end Sys2Proof.Machine
end

section
/-! PROOF. The statement about the digits of a printed value (42_prn.md). -/

namespace Sys2Proof.Machine

/-- Division by ten until one digit is left gives the digits of the library, most significant first. -/
theorem decimalDigitsAux_eq (fuel : Nat) : ∀ {v : Nat} (acc : List Nat), 0 < v → v < fuel →
    decimalDigitsAux fuel v acc = (Nat.digits 10 v).reverse ++ acc := by
  induction fuel with
  | zero => intro v acc _ h; omega
  | succ fuel ih =>
    intro v acc hpos hfuel
    rw [decimalDigitsAux]
    split
    · rename_i hsmall
      rw [Nat.digits_of_lt 10 v hpos.ne' hsmall]
      rfl
    · rw [ih (v % 10 :: acc) (by omega) (by omega), Nat.digits_def' (by decide) hpos]
      simp

/-- The digits of a value other than 0. -/
theorem decimalDigits_of_ne_zero {v : Nat} (hv : v ≠ 0) : decimalDigits v = (Nat.digits 10 v).reverse := by
  rw [decimalDigits, decimalDigitsAux_eq (v + 1) [] (Nat.pos_of_ne_zero hv) v.lt_succ_self, List.append_nil]

theorem decimalDigits_zero : decimalDigits 0 = [0] := rfl

/-- Settles O51: 0 is its own case; any other value has the digits of the library, whose last one is not 0. -/
theorem printedDigitsDenoteTheValue : Obligations.PrintedDigitsDenoteTheValue := by
  intro v
  by_cases hv : v = 0
  · subst hv
    simp [decimalDigits_zero]
  have hdenote : (Nat.digits 10 v).foldr (fun d n => 10 * n + d) 0 = v := by
    have h := Nat.ofDigits_digits 10 v
    rw [Nat.ofDigits_eq_foldr] at h
    simpa [Nat.add_comm] using h
  have hnonempty : Nat.digits 10 v ≠ [] := Nat.digits_ne_nil_iff_ne_zero.mpr hv
  rw [decimalDigits_of_ne_zero hv, List.foldl_reverse, List.head?_reverse, List.length_reverse]
  refine ⟨fun d hd => Nat.digits_lt_base (by decide) (List.mem_reverse.mp hd), hdenote, fun h => absurd h hv,
    fun _ => ?_, fun hsmall => ⟨List.length_pos_iff.mpr hnonempty, ?_⟩⟩
  · rw [List.getLast?_eq_some_getLast hnonempty]
    simpa using Nat.getLast_digit_ne_zero 10 hv
  · exact (Nat.digits_length_le_iff (by decide) v).mpr (by omega)

end Sys2Proof.Machine
end
